-- ==== Sys2Proof/Word.lean ====
section
/-! DEFINITION. The word types of the CORE: bytes, 16-bit words and register numbers (00_scope.md R6, 10_state.md R21). -/

namespace Sys2Proof

/-- An 8-bit byte: a general register, the flag register, a timer, a memory byte. Unsigned everywhere (30 R95, 43 R212). -/
abbrev Byte := BitVec 8

/-- A 16-bit word: the program counter, the index register, a stack entry, an instruction (00 R6). -/
abbrev Word := BitVec 16

/-- A general register's number, named by a 4-bit field: "register indices always in [0,16)" (10 R21). -/
abbrev Reg := Fin 16

end Sys2Proof
end

