-- ==== Sys2Proof/Syntax.lean ====
section
/-! DEFINITION. The instruction set: one constructor per row of the opcode table (30_encoding.md R98).
Every field of a row's word is an operand, also a field that takes no part in the semantics (30 R99), so that decoding
loses no bit. Operands: `x`, `y` register numbers, `kk` the byte w[7:0], `n` the nibble w[3:0] as a count of sprite
rows, `nnn` the 12-bit address field w[11:0] in a 16-bit word (R91). -/

namespace Sys2Proof

/-- The 34 instructions of 30 R98, in the table's order. -/
inductive Instr where
  /-- 00E0, CLS: clear the display (R150). -/
  | cls
  /-- 00EE, RET: pop a return address (R170). -/
  | ret
  /-- 1nnn, JP addr: jump to nnn[10:0] (R171). -/
  | jp (nnn : Word)
  /-- 2nnn, CALL addr: push PC and jump to nnn[10:0] (R172). -/
  | call (nnn : Word)
  /-- 3xkk, SE Vx, kk: skip if V[x] = kk (R173). -/
  | seImm (x : Reg) (kk : Byte)
  /-- 4xkk, SNE Vx, kk: skip if V[x] ≠ kk (R174). -/
  | sneImm (x : Reg) (kk : Byte)
  /-- 5xy0, SE Vx, Vy: skip if V[x] = V[y] (R175). -/
  | seReg (x y : Reg)
  /-- 6xkk, LD Vx, kk: load the immediate (R200). -/
  | ldImm (x : Reg) (kk : Byte)
  /-- 7xkk, ADD Vx, kk: add the immediate, no flag (R201). -/
  | addImm (x : Reg) (kk : Byte)
  /-- 8xy0, LD Vx, Vy: copy a register (R202). -/
  | ldReg (x y : Reg)
  /-- 8xy1, OR Vx, Vy (R203). -/
  | orReg (x y : Reg)
  /-- 8xy2, AND Vx, Vy (R204). -/
  | andReg (x y : Reg)
  /-- 8xy3, XOR Vx, Vy (R205). -/
  | xorReg (x y : Reg)
  /-- 8xy4, ADD Vx, Vy: add, carry to F (R206). -/
  | addReg (x y : Reg)
  /-- 8xy5, SUB Vx, Vy: V[x] − V[y], F = (V[x] > V[y]) (R207). -/
  | subReg (x y : Reg)
  /-- 8xy6, SHR Vx: shift right, bit out to F; y is ignored (R208). -/
  | shr (x y : Reg)
  /-- 8xy7, SUBN Vx, Vy: V[y] − V[x], F = (V[y] > V[x]) (R209). -/
  | subnReg (x y : Reg)
  /-- 8xyE, SHL Vx: shift left, bit out to F; y is ignored (R210). -/
  | shl (x y : Reg)
  /-- 9xy0, labelled SNE Vx, Vy: never skips; y is ignored (R176). -/
  | sneReg (x y : Reg)
  /-- Annn, LD I, addr: I ← nnn[10:0] (R240). -/
  | ldI (nnn : Word)
  /-- Bnnn, JP V0, addr: jump to (V[0] + nnn[7:0]) mod 256; nnn[11:8] is ignored (R177). -/
  | jpV0 (nnn : Word)
  /-- Cxkk, RND Vx, kk: load a random byte; kk is ignored (R211). -/
  | rnd (x : Reg) (kk : Byte)
  /-- Dxyn, DRW Vx, Vy, n: draw an n-row sprite (R151). -/
  | drw (x y : Reg) (n : Nat)
  /-- Ex9E, SKP Vx: skip if key V[x] is pressed (R273). -/
  | skp (x : Reg)
  /-- ExA1, SKNP Vx: skip if key V[x] is not pressed (R274). -/
  | sknp (x : Reg)
  /-- Fx07, LD Vx, DT: read the delay timer (R270). -/
  | ldVxDT (x : Reg)
  /-- Fx0A, LD Vx, K: wait for a key (R275). -/
  | ldVxK (x : Reg)
  /-- Fx15, LD DT, Vx: load the delay timer (R271). -/
  | ldDTVx (x : Reg)
  /-- Fx18, LD ST, Vx: load the sound timer (R272). -/
  | ldSTVx (x : Reg)
  /-- Fx1E, ADD I, Vx: 16-bit add to I, no flag (R241). -/
  | addI (x : Reg)
  /-- Fx29, LD F, x: I ← 5·x, the register INDEX (R242). -/
  | ldF (x : Reg)
  /-- Fx33, LD B, Vx: store the decimal digits of V[x] (R243). -/
  | ldB (x : Reg)
  /-- Fx55, LD [I], Vx: store V[0..x), x as a count (R244). -/
  | storeRegs (x : Reg)
  /-- Fx65, LD Vx, [I]: load V[0..x], x as a count (R245). -/
  | loadRegs (x : Reg)
  deriving DecidableEq, Repr

end Sys2Proof
end

