-- ==== Sys2Proof/WellFormed.lean ====
section
/-! DEFINITION. Which terms of `Instr` stand for an instruction word: an address field fits its 12 bits, a nibble its 4
(30_encoding.md R91). Register numbers and bytes fit by their types. -/

namespace Sys2Proof

/-- nnn = w[11:0]: a 12-bit field (30 R91). -/
def nnnFits (nnn : Word) : Bool := decide (nnn.toNat < 0x1000)

/-- n = w[3:0]: a 4-bit field (30 R91). -/
def nibbleFits (n : Nat) : Bool := decide (n < 16)

/-- Every operand of the instruction fits its field of the word (30 R91). -/
def Instr.wellFormed : Instr → Bool
  | .cls => true
  | .ret => true
  | .jp nnn => nnnFits nnn
  | .call nnn => nnnFits nnn
  | .seImm _ _ => true
  | .sneImm _ _ => true
  | .seReg _ _ => true
  | .ldImm _ _ => true
  | .addImm _ _ => true
  | .ldReg _ _ => true
  | .orReg _ _ => true
  | .andReg _ _ => true
  | .xorReg _ _ => true
  | .addReg _ _ => true
  | .subReg _ _ => true
  | .shr _ _ => true
  | .subnReg _ _ => true
  | .shl _ _ => true
  | .sneReg _ _ => true
  | .ldI nnn => nnnFits nnn
  | .jpV0 nnn => nnnFits nnn
  | .rnd _ _ => true
  | .drw _ _ n => nibbleFits n
  | .skp _ => true
  | .sknp _ => true
  | .ldVxDT _ => true
  | .ldVxK _ => true
  | .ldDTVx _ => true
  | .ldSTVx _ => true
  | .addI _ => true
  | .ldF _ => true
  | .ldB _ => true
  | .storeRegs _ => true
  | .loadRegs _ => true

end Sys2Proof
end

