-- ==== Sys2Proof/Decode.lean ====
section
/-! DEFINITION. The decoder of 30_encoding.md R92, the dispatch table of R98, and the encoder written from the same
table. The decoder is total on any two bytes; a word that matches no row is refused by name (R100). -/

namespace Sys2Proof

/-! ### The decoder's operand record (R91, R92) -/

/-- The record {full, address, nibble, x, y, immediate} of R92, with the format's 12-bit field `nnn` of R91. -/
structure Fields where
  full : Word
  /-- `full & 0x7FF`: 11 bits, NOT 12 (R93). -/
  address : Word
  /-- w[11:0], the format's address field (R91). -/
  nnn : Word
  nibble : Nat
  x : Reg
  y : Reg
  immediate : Byte
  deriving DecidableEq, Repr

/-- `full = (high << 8) | low` (R92; big-endian, 20 R63). -/
def wordOfBytes (high low : Byte) : Word := (high.setWidth 16 <<< 8) ||| low.setWidth 16

/-- The byte fetched first, at PC (20 R63). -/
def highByte (w : Word) : Byte := (w >>> 8).setWidth 8

/-- The byte fetched second, at PC + 1 (20 R63). -/
def lowByte (w : Word) : Byte := w.setWidth 8

/-- The address operand of 1nnn, 2nnn and Annn: the field's low 11 bits (R93). -/
def address11 (nnn : Word) : Word := nnn &&& 0x07FF

/-- The pure decoder of R92, total on every two bytes. -/
def decodeFields (high low : Byte) : Fields :=
  { full := wordOfBytes high low
    address := address11 (wordOfBytes high low)
    nnn := wordOfBytes high low &&& 0x0FFF
    nibble := (low &&& 0x0F).toNat
    x := Fin.ofNat 16 (high &&& 0x0F).toNat
    y := Fin.ofNat 16 (low >>> 4).toNat
    immediate := low }

/-! ### The dispatch table (R96, R98) -/

/-- A row of R98: the word matches when `full & mask == pattern`. -/
structure Row where
  mask : Word
  pattern : Word
  make : Fields → Instr

/-- `full & mask_k == pattern_k` (R96). -/
def Row.hits (r : Row) (w : Word) : Bool := w &&& r.mask == r.pattern

/-- R98 rows 1 to 9. -/
def rowsControl : List Row :=
  [ ⟨0xFFFF, 0x00E0, fun _ => .cls⟩,
    ⟨0xFFFF, 0x00EE, fun _ => .ret⟩,
    ⟨0xF000, 0x1000, fun d => .jp d.nnn⟩,
    ⟨0xF000, 0x2000, fun d => .call d.nnn⟩,
    ⟨0xF000, 0x3000, fun d => .seImm d.x d.immediate⟩,
    ⟨0xF000, 0x4000, fun d => .sneImm d.x d.immediate⟩,
    ⟨0xF00F, 0x5000, fun d => .seReg d.x d.y⟩,
    ⟨0xF000, 0x6000, fun d => .ldImm d.x d.immediate⟩,
    ⟨0xF000, 0x7000, fun d => .addImm d.x d.immediate⟩ ]

/-- R98 rows 10 to 19. -/
def rowsAlu : List Row :=
  [ ⟨0xF00F, 0x8000, fun d => .ldReg d.x d.y⟩,
    ⟨0xF00F, 0x8001, fun d => .orReg d.x d.y⟩,
    ⟨0xF00F, 0x8002, fun d => .andReg d.x d.y⟩,
    ⟨0xF00F, 0x8003, fun d => .xorReg d.x d.y⟩,
    ⟨0xF00F, 0x8004, fun d => .addReg d.x d.y⟩,
    ⟨0xF00F, 0x8005, fun d => .subReg d.x d.y⟩,
    ⟨0xF00F, 0x8006, fun d => .shr d.x d.y⟩,
    ⟨0xF00F, 0x8007, fun d => .subnReg d.x d.y⟩,
    ⟨0xF00F, 0x800E, fun d => .shl d.x d.y⟩,
    ⟨0xF00F, 0x9000, fun d => .sneReg d.x d.y⟩ ]

/-- R98 rows 20 to 25. -/
def rowsIndex : List Row :=
  [ ⟨0xF000, 0xA000, fun d => .ldI d.nnn⟩,
    ⟨0xF000, 0xB000, fun d => .jpV0 d.nnn⟩,
    ⟨0xF000, 0xC000, fun d => .rnd d.x d.immediate⟩,
    ⟨0xF000, 0xD000, fun d => .drw d.x d.y d.nibble⟩,
    ⟨0xF0FF, 0xE09E, fun d => .skp d.x⟩,
    ⟨0xF0FF, 0xE0A1, fun d => .sknp d.x⟩ ]

/-- R98 rows 26 to 34. -/
def rowsF : List Row :=
  [ ⟨0xF0FF, 0xF007, fun d => .ldVxDT d.x⟩,
    ⟨0xF0FF, 0xF00A, fun d => .ldVxK d.x⟩,
    ⟨0xF0FF, 0xF015, fun d => .ldDTVx d.x⟩,
    ⟨0xF0FF, 0xF018, fun d => .ldSTVx d.x⟩,
    ⟨0xF0FF, 0xF01E, fun d => .addI d.x⟩,
    ⟨0xF0FF, 0xF029, fun d => .ldF d.x⟩,
    ⟨0xF0FF, 0xF033, fun d => .ldB d.x⟩,
    ⟨0xF0FF, 0xF055, fun d => .storeRegs d.x⟩,
    ⟨0xF0FF, 0xF065, fun d => .loadRegs d.x⟩ ]

/-- The opcode map of R98, all 34 rows in the table's order. -/
def rows : List Row := rowsControl ++ rowsAlu ++ rowsIndex ++ rowsF

/-- Why a word is no instruction. -/
inductive DecodeError where
  /-- The word matches no row (R100). -/
  | unknownOpcode (full : Word)
  deriving DecidableEq, Repr

/-- The bytes (high, low) to an instruction: "first match wins" over the table (R92, R96, R98); a word that matches no
row is illegal (R100). -/
def decode (high low : Byte) : Except DecodeError Instr :=
  match rows.find? (fun r => r.hits (decodeFields high low).full) with
  | some r => .ok (r.make (decodeFields high low))
  | none => .error (.unknownOpcode (decodeFields high low).full)

/-- The decoder on a whole word. -/
def decodeWord (w : Word) : Except DecodeError Instr := decode (highByte w) (lowByte w)

/-! ### Numbered as the opcode table numbers its bits -/

/-- The bytes, lowest address first, of the instruction whose low `nbits` bits are those of `w` and whose other bits
are 0. The table's bit 0 is the word's least significant bit; the high byte lies first (20 R63). -/
def tableWordBytes (nbits w : Nat) : List Byte :=
  [highByte (BitVec.ofNat 16 (w % 2 ^ nbits)), lowByte (BitVec.ofNat 16 (w % 2 ^ nbits))]

/-- What the decoder reads from an instruction laid out as the hardware stores it. -/
def decodeTableWord (nbits w : Nat) : Option Instr :=
  match tableWordBytes nbits w with
  | [high, low] => (decode high low).toOption
  | _ => none

/-! ### The encoder (R91, R98, R102) -/

/-- A word of the form op|nnn. -/
def formNNN (op nnn : Word) : Word := op ||| (nnn &&& 0x0FFF)

/-- A register number placed at w[11:8]. -/
def atX (x : Reg) : Word := BitVec.ofNat 16 x.val <<< 8

/-- A register number placed at w[7:4]. -/
def atY (y : Reg) : Word := BitVec.ofNat 16 y.val <<< 4

/-- A word of the form op|x|kk. -/
def formXKK (op : Word) (x : Reg) (kk : Byte) : Word := op ||| atX x ||| kk.setWidth 16

/-- A word of the form op|x|y|n. -/
def formXYN (op : Word) (x y : Reg) (n : Nat) : Word := op ||| atX x ||| atY y ||| BitVec.ofNat 16 (n % 16)

/-- A word whose only field is x. -/
def formX (op : Word) (x : Reg) : Word := op ||| atX x

/-- The instruction's word: its row's pattern of R98 with the operands in their fields (R91). -/
def encode : Instr → Word
  | .cls => 0x00E0
  | .ret => 0x00EE
  | .jp nnn => formNNN 0x1000 nnn
  | .call nnn => formNNN 0x2000 nnn
  | .seImm x kk => formXKK 0x3000 x kk
  | .sneImm x kk => formXKK 0x4000 x kk
  | .seReg x y => formXYN 0x5000 x y 0
  | .ldImm x kk => formXKK 0x6000 x kk
  | .addImm x kk => formXKK 0x7000 x kk
  | .ldReg x y => formXYN 0x8000 x y 0
  | .orReg x y => formXYN 0x8000 x y 1
  | .andReg x y => formXYN 0x8000 x y 2
  | .xorReg x y => formXYN 0x8000 x y 3
  | .addReg x y => formXYN 0x8000 x y 4
  | .subReg x y => formXYN 0x8000 x y 5
  | .shr x y => formXYN 0x8000 x y 6
  | .subnReg x y => formXYN 0x8000 x y 7
  | .shl x y => formXYN 0x8000 x y 14
  | .sneReg x y => formXYN 0x9000 x y 0
  | .ldI nnn => formNNN 0xA000 nnn
  | .jpV0 nnn => formNNN 0xB000 nnn
  | .rnd x kk => formXKK 0xC000 x kk
  | .drw x y n => formXYN 0xD000 x y n
  | .skp x => formX 0xE09E x
  | .sknp x => formX 0xE0A1 x
  | .ldVxDT x => formX 0xF007 x
  | .ldVxK x => formX 0xF00A x
  | .ldDTVx x => formX 0xF015 x
  | .ldSTVx x => formX 0xF018 x
  | .addI x => formX 0xF01E x
  | .ldF x => formX 0xF029 x
  | .ldB x => formX 0xF033 x
  | .storeRegs x => formX 0xF055 x
  | .loadRegs x => formX 0xF065 x

/-- The instruction's two bytes in memory order (20 R63). -/
def encodeBytes (i : Instr) : List Byte := [highByte (encode i), lowByte (encode i)]

end Sys2Proof
end

