-- ==== Sys2Proof/Config.lean ====
section
/-! DEFINITION. What the machine takes from outside: the host's move between two cycles, and the free values the spec leaves open (40_cycle.md R132, 92_eei_decisions.md D20, D22). -/

namespace Sys2Proof

/-- This cycle's random draw RAND (40 R132): a byte, any of the 256, or the failure of the source. -/
inductive RandomInput where
  /-- The source answers this byte. -/
  | byte (b : Byte)
  /-- "entropy source unavailable for the random-byte instruction" (60 R303). -/
  | failure
  deriving DecidableEq, Repr, Inhabited

/-- What the host does between two cycles (40 R132, 60 R322): it sets the key vector of the next cycle, the random
source gives the next draw, and the host may clear `redraw_pending`. It writes nothing else during a run. -/
structure HostMove where
  keys : Vector Bool 16
  random : RandomInput
  clearsRedraw : Bool
  deriving DecidableEq, Repr, Inhabited

/-- FREE VALUE (notes/assumptions/8.md): the host's k-th unscripted move. No body: nothing says when keys are pressed,
what the source draws, how two draws relate, or when the host clears RD (92 D20, D22, D25). -/
opaque Config.hostMove : Nat → HostMove

end Sys2Proof
end

