-- ==== Sys2Proof/Machine/State.lean ====
section
/-! DEFINITION. The state of the CORE and its environment (10_state.md R20), as plain data; the errors (60_exceptions.md
R301); and the state right after reset (70_reset_and_hazards.md R340). -/

namespace Sys2Proof.Machine

/-- Memory as its listed cells: addresses strictly rising, none with the byte an unlisted address reads as. Its
operations, what an unlisted address reads as, and its canonical form `Memory.wf` are in Machine/Memory.lean. -/
abbrev Memory := List Host.Cell

/-- The display grid: 32 rows of 64 pixels, row-major, pixel (c, r) at element r·64 + c; true is on (10 R32). -/
abbrev Display := Vector Bool 2048

/-- Why a cycle (or the loader) ends the run: the error kinds of 60 R301 with the info they record. All of them are the
spec's own; each is safe: the run stops, and nothing can be proved of a state after it (60 R310, 92 D11). -/
inductive Fault where
  /-- Raised by the cycle when the fetched word matches no row of the table (60 R302). Safe. -/
  | unknownOpcode (full pc : Word)
  /-- Raised by Cxkk when this cycle's random draw failed (60 R303). Safe. -/
  | randomSourceFailure (pc : Word)
  /-- Raised by 2nnn when SP = 15 (60 R304). Safe. -/
  | stackOverflow (pc : Word)
  /-- Raised by 00EE when SP = 0 (60 R305). Safe. -/
  | stackUnderflow (pc : Word)
  /-- Raised by the fetch when PC + 1 > 0xFFF (60 R306). Safe. -/
  | fetchOutOfRange (pc : Word)
  /-- Raised by Dxyn, Fx33, Fx55 and Fx65 when an address of the access is 0x1000 or more; `addr` is the first such
  address (60 R307). Safe. -/
  | memoryOutOfRange (addr : Nat) (pc : Word)
  /-- Raised by Ex9E and ExA1 when V[x] ≥ 16 (60 R308). Safe. -/
  | keyIndexOutOfRange (value : Byte) (pc : Word)
  /-- Raised by Fx33 and Fx55 when the first address written is below 0x050 (60 R309). Safe. -/
  | fontWrite (i pc : Word)
  /-- Raised by the loader when the image has more than 3584 bytes (70 R342). Safe. -/
  | imageTooLarge (size : Nat)
  /-- Raised by the loader when the image cannot be read (70 R342). Safe. -/
  | imageReadFailure
  deriving DecidableEq, Repr

/-- Why an instruction has no meaning in the model. No arm of `exec` answers one: all 34 instructions have meanings. -/
inductive Refusal where
  /-- Raised by an arm of `exec` for an instruction not modelled yet (none is left). Safe. -/
  | notModelled (mnemonic : String)
  deriving DecidableEq, Repr

/-- Every field of 10 R20, the random input of 40 R132, and two fields of the model's own that say what the host does
after the coming cycles (notes/assumptions/8.md). -/
structure State where
  /-- memory[a] (10 R20, 20 R60). -/
  mem : Memory
  /-- V[0] to V[15] (10 R21, R22). -/
  v : Vector Byte 16
  /-- The flag register F, separate from V[15] (10 R24, R29). -/
  f : Byte
  /-- The program counter PC (10 R25). -/
  pc : Word
  /-- The stack S[0] to S[15] (10 R27). -/
  stack : Vector Word 16
  /-- The stack pointer SP (10 R28). -/
  sp : Fin 16
  /-- The index register I (10 R26). -/
  i : Word
  /-- The delay timer DT (10 R30). -/
  dt : Byte
  /-- The sound timer ST (10 R30). -/
  st : Byte
  /-- Pix(c, r) (10 R32). -/
  display : Display
  /-- redraw_pending, RD (10 R33). -/
  rd : Bool
  /-- Key(0) to Key(15): the KEYS input of the next cycle (10 R34, 40 R132). -/
  keys : Vector Bool 16
  /-- RAND: the random input of the next cycle (40 R132, 43 R211). -/
  random : RandomInput
  /-- cycle_count (10 R35). -/
  cycleCount : Nat
  /-- MODEL'S OWN: the host's moves already scripted for after the coming cycles, oldest first (assumption 8). -/
  hostMoves : List HostMove
  /-- MODEL'S OWN: the index of the next unscripted host move (assumption 8). -/
  hostTurns : Nat
  deriving DecidableEq, Repr

/-- The state right after state construction (70 R340): PC = 0x200, SP = 0, cycle_count = 0, the font in memory (what an
unlisted address reads as). The launch values INIT, which the spec leaves open (92 D2), are zero here: DESIGN CHOICE,
unsafe (notes/assumptions/1.md, 2.md, 7.md, 8.md). `State.construct` takes every other INIT and FONT. -/
def State.reset : State where
  mem := []
  v := Vector.replicate 16 0
  f := 0
  pc := 0x200
  stack := Vector.replicate 16 0
  sp := 0
  i := 0
  dt := 0
  st := 0
  display := Vector.replicate 2048 false
  rd := false
  keys := Vector.replicate 16 false
  random := .byte 0
  cycleCount := 0
  hostMoves := []
  hostTurns := 0

end Sys2Proof.Machine
end

