-- ==== Sys2Proof/Machine/Memory.lean ====
section
/-! DEFINITION. Memory as a canonical list of cells (20_memory.md R60, R61): reading and writing one byte, runs of bytes,
what an unlisted address reads as, and the canonical form. Addresses are Nat and unwrapped (20 R65); the range checks
of the instructions are in Machine/Ops.lean. -/

namespace Sys2Proof.Machine

/-! ### Reset content (20 R73) -/

/-- FONT_default, digits 0 to 7: PRESUMED, the conventional font of the family (70 R340, 92 D10; notes/assumptions/3.md). -/
def fontDigits0to7 : List Byte :=
  [ 0xF0, 0x90, 0x90, 0x90, 0xF0,
    0x20, 0x60, 0x20, 0x20, 0x70,
    0xF0, 0x10, 0xF0, 0x80, 0xF0,
    0xF0, 0x10, 0xF0, 0x10, 0xF0,
    0x90, 0x90, 0xF0, 0x10, 0x10,
    0xF0, 0x80, 0xF0, 0x10, 0xF0,
    0xF0, 0x80, 0xF0, 0x90, 0xF0,
    0xF0, 0x10, 0x20, 0x40, 0x40 ]

/-- FONT_default, digits 8 to F: PRESUMED, as above. -/
def fontDigits8toF : List Byte :=
  [ 0xF0, 0x90, 0xF0, 0x90, 0xF0,
    0xF0, 0x90, 0xF0, 0x10, 0xF0,
    0xF0, 0x90, 0xF0, 0x90, 0x90,
    0xE0, 0x90, 0xE0, 0x90, 0xE0,
    0xF0, 0x80, 0x80, 0x80, 0xF0,
    0xE0, 0x90, 0x90, 0x90, 0xE0,
    0xF0, 0x80, 0xF0, 0x80, 0xF0,
    0xF0, 0x80, 0xF0, 0x80, 0x80 ]

/-- The 80 glyph bytes, glyph d at 5·d (20 R67, 70 R340). -/
def fontDefault : List Byte := fontDigits0to7 ++ fontDigits8toF

/-- What an address with no listed cell reads as: the font below 0x050 (assumption 3), and 0 from 0x050 on, where the
spec has the launch parameter INIT.mem (DESIGN CHOICE, unsafe: notes/assumptions/2.md). -/
def Memory.unlisted (a : Nat) : Byte := fontDefault.getD a 0

/-! ### One byte -/

/-- The byte at address a (00_scope.md §5, `MemRead(a, 1)`, without its range check). -/
def Memory.read : Memory → Nat → Byte
  | [], a => Memory.unlisted a
  | (k, b) :: t, a => if k = a then b else Memory.read t a

/-- The cells other than those of address a. -/
def Memory.erase : Memory → Nat → Memory
  | [], _ => []
  | (k, b) :: t, a => if k = a then Memory.erase t a else (k, b) :: Memory.erase t a

/-- The cells with (a, b) put before the first cell of a higher address. -/
def Memory.insert : Memory → Nat → Byte → Memory
  | [], a, b => [(a, b)]
  | (k, c) :: t, a, b => if a < k then (a, b) :: (k, c) :: t else (k, c) :: Memory.insert t a b

/-- `MemWrite(a, 1, b)` without its checks. Writing what an unlisted address reads as removes the cell. -/
def Memory.write (m : Memory) (a : Nat) (b : Byte) : Memory :=
  if b = Memory.unlisted a then Memory.erase m a else Memory.insert (Memory.erase m a) a b

/-! ### Runs of bytes -/

/-- The bytes written one after the other from address a on (43..44: every store is of single bytes, 20 R62). -/
def Memory.writeBytes : Memory → Nat → List Byte → Memory
  | m, _, [] => m
  | m, a, b :: bs => Memory.writeBytes (Memory.write m a b) (a + 1) bs

/-! ### The canonical form -/

/-- The cells' addresses rise strictly from `lo`, exist (below 0x1000, 20 R60), and no cell holds what its address reads
as unlisted. -/
def Memory.wfFrom : Nat → Memory → Bool
  | _, [] => true
  | lo, (a, b) :: t => decide (lo ≤ a) && decide (a < 0x1000) && decide (b ≠ Memory.unlisted a) && Memory.wfFrom (a + 1) t

/-- Memory's canonical form: equal memories are equal lists. -/
def Memory.wf (m : Memory) : Bool := Memory.wfFrom 0 m

end Sys2Proof.Machine
end

