-- ==== Sys2Proof/Machine/Ops.lean ====
section
/-! DEFINITION. The named operations over the state: register access, the program counter sequencer (40_cycle.md R125,
R126), the stack (42 R170, R172), the checked memory ranges (20 R65, R66), the display (41_display.md), the timers
(40 R123), the fetch (40 R121), the end of a cycle (40 R130), raising an error (60_exceptions.md R300), and the host's
turn between cycles (40 R132). -/

namespace Sys2Proof.Machine

/-! ### Registers (10 R21 to R30) -/

/-- V[x]. -/
def State.readV (s : State) (x : Reg) : Byte := s.v[x.val]

/-- V[x] ← b. -/
def State.setV (s : State) (x : Reg) (b : Byte) : State := { s with v := s.v.set x.val b }

/-- F ← b; F is no general register (10 R22). -/
def State.setF (s : State) (b : Byte) : State := { s with f := b }

/-- I ← w. -/
def State.setI (s : State) (w : Word) : State := { s with i := w }

/-- DT ← b. -/
def State.setDT (s : State) (b : Byte) : State := { s with dt := b }

/-- ST ← b. -/
def State.setST (s : State) (b : Byte) : State := { s with st := b }

/-- PC ← w. -/
def State.setPC (s : State) (w : Word) : State := { s with pc := w }

/-! ### The program counter sequencer -/

/-- Step 4 of the cycle: PC ← trunc16(PC + 2) (40 R125). A meaning that suppresses the auto-advance does not call it. -/
def State.autoAdvance (s : State) : State := s.setPC (s.pc + 2)

/-- "skip": an extra PC ← trunc16(PC + 2) inside the body when the condition holds (42 R178, 40 R126). -/
def State.skipIf (s : State) (taken : Bool) : State := s.setPC (if taken then s.pc + 2 else s.pc)

/-! ### Errors -/

/-- An error ends the cycle and the run: `Err(kind, info)` goes to the host, and there is no state after it (60 R300,
R310, 40 R129). This is the only "exception" of the hardware: no trap entry, no handler, and so no return (60 R310, R311). -/
def raise (e : Fault) : Host.Outcome State Fault Refusal := .fault e

/-! ### The stack -/

/-- SP ← SP + 1; S[SP] ← PC (42 R172). Called with SP < 15. -/
def State.push (s : State) : State :=
  { s with sp := s.sp + 1, stack := s.stack.set (s.sp + 1).val s.pc }

/-- PC ← S[SP]; SP ← SP − 1 (42 R170). Called with SP > 0. S[SP] keeps its value. -/
def State.pop (s : State) : State :=
  { s with pc := s.stack[s.sp.val], sp := s.sp - 1 }

/-! ### Memory through I (20 R65, R66, 44 R246) -/

/-- The error of an access of `count` bytes from I, if any byte of it is at 0x1000 or above: its first such address is
max(I, 0x1000) (60 R307). An access of no bytes has none. -/
def State.rangeError (s : State) (count : Nat) : Option Fault :=
  if 0 < count ∧ 0xFFF < s.i.toNat + count - 1 then some (.memoryOutOfRange (max s.i.toNat 0x1000) s.pc) else none

/-- The error of a write of `count` bytes from I, the range before the font (60 R312): the font, below 0x050, may not be
written (20 R66, 60 R309). -/
def State.writeError (s : State) (count : Nat) : Option Fault :=
  match s.rangeError count with
  | some e => some e
  | none => if 0 < count ∧ s.i.toNat < 0x50 then some (.fontWrite s.i s.pc) else none

/-- Writes the bytes at I, I + 1, … (44 R243, R244). Called when `writeError` is none. -/
def State.storeAtI (s : State) (bytes : List Byte) : State :=
  { s with mem := Memory.writeBytes s.mem s.i.toNat bytes }

/-- V[k] ← memory[I + k] for every k ≤ x (44 R245). Called when `rangeError` of x + 1 bytes is none. -/
def State.loadFromI (s : State) (x : Reg) : State :=
  { s with v := Vector.ofFn fun k : Fin 16 => if k ≤ x then Memory.read s.mem (s.i.toNat + k.val) else s.v[k.val] }

/-! ### The display (10 R32, R33, 41) -/

/-- The row-major element r·64 + c of pixel (c, r) (10 R32). -/
def pixelIndex (c : Fin 64) (r : Fin 32) : Fin 2048 := ⟨r.val * 64 + c.val, by omega⟩

/-- Pix(c, r). -/
def Display.pix (d : Display) (c : Fin 64) (r : Fin 32) : Bool := d[(pixelIndex c r).val]

/-- Pix(c, r) ← b. -/
def Display.setPix (d : Display) (c : Fin 64) (r : Fin 32) (b : Bool) : Display := d.set (pixelIndex c r).val b

/-- RD ← true (41 R155). -/
def State.requestRedraw (s : State) : State := { s with rd := true }

/-- Every pixel off (41 R150). -/
def State.clearDisplay (s : State) : State := { s with display := Vector.replicate 2048 false }

/-- A column number taken modulo 64 (41 R153). -/
def wrapColumn (c : Nat) : Fin 64 := ⟨c % 64, by omega⟩

/-- A row number taken modulo 32 (41 R153). -/
def wrapRow (r : Nat) : Fin 32 := ⟨r % 32, by omega⟩

/-- The bit of a sprite row byte for column offset `col`: bit 7 is the leftmost (41 R152). -/
def spriteBit (b : Byte) (col : Nat) : Bool := b.getLsbD (7 - col)

/-- The display and the flag register, which a draw changes together. -/
structure Canvas where
  display : Display
  f : Byte
  deriving DecidableEq, Repr

/-- A set sprite bit meets pixel (c, r): an on pixel turns off and F ← 1; an off pixel turns on (41 R151, R154). -/
def Canvas.toggle (k : Canvas) (c : Fin 64) (r : Fin 32) : Canvas :=
  if Display.pix k.display c r then ⟨Display.setPix k.display c r false, 1⟩ else ⟨Display.setPix k.display c r true, k.f⟩

/-- One sprite row byte, column offsets 0 to 7 in order, at column c0 with wrap-around (41 R151, R153). -/
def Canvas.drawRow (k : Canvas) (b : Byte) (c0 : Nat) (r : Fin 32) : Canvas :=
  (List.range 8).foldl (fun acc col => if spriteBit b col then acc.toggle (wrapColumn (c0 + col)) r else acc) k

/-- The sprite's row bytes from the top, at row r0 downward with wrap-around (41 R151, R153). -/
def Canvas.drawRows : Canvas → List Byte → Nat → Nat → Canvas
  | k, [], _, _ => k
  | k, b :: bs, c0, r0 => Canvas.drawRows (k.drawRow b c0 (wrapRow r0)) bs c0 (r0 + 1)

/-- The sprite bytes memory[I..I+n) (41 R151). -/
def State.spriteRows (s : State) (n : Nat) : List Byte := (List.range n).map fun k => Memory.read s.mem (s.i.toNat + k)

/-- Draws n rows from memory[I..] at (c0, r0). -/
def State.drawSprite (s : State) (c0 r0 n : Nat) : State :=
  let k := Canvas.drawRows ⟨s.display, s.f⟩ (s.spriteRows n) c0 r0
  { s with display := k.display, f := k.f }

/-! ### The keys (10 R34, 45) -/

/-- Key(k): the pressed state of pad key k in this cycle. -/
def State.key (s : State) (k : Fin 16) : Bool := s.keys[k.val]

/-- The scan of Fx0A over the keys 0 to 15 in order: the last pressed index met (45 R275). -/
def State.scanKeys (s : State) : Option (Fin 16) :=
  (List.finRange 16).foldl (fun found k => if s.key k then some k else found) none

/-! ### The cycle's own steps (40) -/

/-- One timer: a nonzero value counts down by 1, 0 stays 0 (10 R30, 40 R123). -/
def countDown (t : Byte) : Byte := if 0 < t then t - 1 else t

/-- Step 2 of the cycle: both timers count down, before the instruction body (40 R123). -/
def State.tickTimers (s : State) : State := { s with dt := countDown s.dt, st := countDown s.st }

/-- Step 1 of the cycle: the bytes at PC and PC + 1, or FetchOutOfRange before any state changes (40 R121). -/
def State.fetch (s : State) : Except Fault (Byte × Byte) :=
  if 0xFFF < s.pc.toNat + 1 then .error (.fetchOutOfRange s.pc)
  else .ok (Memory.read s.mem s.pc.toNat, Memory.read s.mem (s.pc.toNat + 1))

/-- The end of a cycle that completes: cycle_count ← cycle_count + 1 (40 R130). -/
def State.countCycle (s : State) : State := { s with cycleCount := s.cycleCount + 1 }

/-! ### The host's turn (40 R132, 60 R322) -/

/-- One move of the host: the next cycle's keys and draw, and RD perhaps cleared. -/
def State.applyHostMove (s : State) (h : HostMove) : State :=
  { s with keys := h.keys, random := h.random, rd := s.rd && !h.clearsRedraw }

/-- Between two cycles the host moves: the oldest scripted move, or a free one (notes/assumptions/8.md). -/
def State.hostTurn (s : State) : State :=
  match s.hostMoves with
  | h :: hs => { s.applyHostMove h with hostMoves := hs }
  | [] => { s.applyHostMove (Config.hostMove s.hostTurns) with hostTurns := s.hostTurns + 1 }

/-- The state with an instruction's bytes stored from PC on: what a loader that places it there leaves. -/
def State.placeAtPC (s : State) (bytes : List Byte) : State :=
  { s with mem := Memory.writeBytes s.mem s.pc.toNat bytes }

end Sys2Proof.Machine
end

