-- ==== Sys2Proof/Machine/Operands.lean ====
section
/-! DEFINITION. What an instruction's operands stand for: addresses (30_encoding.md R93, R94), the decimal digits of a
byte (44 R243), a glyph's address (44 R242), a key named by a register (45 R273), a sprite's start (41 R151). -/

namespace Sys2Proof.Machine

/-- The target of Bnnn: V[0] plus the address's low byte, truncated to 8 bits, zero-extended (42 R177). -/
def v0Target (v0 : Byte) (nnn : Word) : Word := (v0 + lowByte nnn).setWidth 16

/-- The address of glyph x: five times the register INDEX (44 R242). -/
def glyphAddress (x : Reg) : Word := BitVec.ofNat 16 (5 * x.val)

/-- Hundreds, tens and ones of a byte, each as its value 0..9, in memory order (44 R243). -/
def decimalDigits (b : Byte) : List Byte :=
  [BitVec.ofNat 8 (b.toNat / 100), BitVec.ofNat 8 (b.toNat / 10 % 10), BitVec.ofNat 8 (b.toNat % 10)]

/-- The registers V[0] to V[x−1], x as a count (44 R244). -/
def State.registersBelow (s : State) (x : Reg) : List Byte := s.v.toList.take x.val

/-- The key a register value names: an index below 16, or none (45 R273, 60 R308). -/
def keyIndex (b : Byte) : Option (Fin 16) := if h : b.toNat < 16 then some ⟨b.toNat, h⟩ else none

/-- The start column of a sprite: V[x] mod 64 (41 R151). -/
def startColumn (b : Byte) : Nat := b.toNat % 64

/-- The start row of a sprite: V[y] mod 32 (41 R151). -/
def startRow (b : Byte) : Nat := b.toNat % 32

end Sys2Proof.Machine
end

