-- ==== Sys2Proof/Machine/Flags.lean ====
section
/-! DEFINITION. Every flag computation: the value F takes, always 0 or 1 (10_state.md R24, 43_alu.md R206 to R210). The
collision flag of Dxyn is in `Canvas.toggle` (Machine/Ops.lean), since it is only ever set (41 R154). -/

namespace Sys2Proof.Machine

/-- 1 when the condition holds, else 0. -/
def flagOf (c : Bool) : Byte := if c then 1 else 0

/-- The carry of 8xy4: the unwidened sum exceeds 255 (43 R206). -/
def carryFlag (a b : Byte) : Byte := flagOf (decide (a.toNat + b.toNat > 255))

/-- The flag of 8xy5 and 8xy7: the minuend strictly greater than the subtrahend, not "no borrow" (43 R207, R209). -/
def greaterFlag (minuend subtrahend : Byte) : Byte := flagOf (decide (minuend > subtrahend))

/-- The bit 8xy6 shifts out at the right (43 R208). -/
def lowBitFlag (a : Byte) : Byte := a &&& 1

/-- The bit 8xyE shifts out at the left (43 R210). -/
def highBitFlag (a : Byte) : Byte := flagOf (a &&& 0x80 != 0)

end Sys2Proof.Machine
end

