-- ==== Sys2Proof/Machine/Alu.lean ====
section
/-! DEFINITION. Register loads, the 8-bit ALU and the random byte (43_alu.md). Operands are read before F or V[x] is
written (40 R134). -/

namespace Sys2Proof.Machine

/-- 6xkk (R200): V[x] ← kk. -/
def execLdImm (x : Reg) (kk : Byte) (s : State) : Host.Outcome State Fault Refusal :=
  .next (s.setV x kk).autoAdvance

/-- 7xkk (R201): V[x] ← trunc8(V[x] + kk), F not written. -/
def execAddImm (x : Reg) (kk : Byte) (s : State) : Host.Outcome State Fault Refusal :=
  .next (s.setV x (s.readV x + kk)).autoAdvance

/-- 8xy0 (R202): V[x] ← V[y]. -/
def execLdReg (x y : Reg) (s : State) : Host.Outcome State Fault Refusal :=
  .next (s.setV x (s.readV y)).autoAdvance

/-- 8xy1 (R203): V[x] ← V[x] | V[y], F not written. -/
def execOrReg (x y : Reg) (s : State) : Host.Outcome State Fault Refusal :=
  .next (s.setV x (s.readV x ||| s.readV y)).autoAdvance

/-- 8xy2 (R204): V[x] ← V[x] & V[y], F not written. -/
def execAndReg (x y : Reg) (s : State) : Host.Outcome State Fault Refusal :=
  .next (s.setV x (s.readV x &&& s.readV y)).autoAdvance

/-- 8xy3 (R205): V[x] ← V[x] ^ V[y], F not written. -/
def execXorReg (x y : Reg) (s : State) : Host.Outcome State Fault Refusal :=
  .next (s.setV x (s.readV x ^^^ s.readV y)).autoAdvance

/-- 8xy4 (R206): F ← carry, V[x] ← trunc8(V[x] + V[y]). -/
def execAddReg (x y : Reg) (s : State) : Host.Outcome State Fault Refusal :=
  .next ((s.setF (carryFlag (s.readV x) (s.readV y))).setV x (s.readV x + s.readV y)).autoAdvance

/-- 8xy5 (R207): F ← (V[x] > V[y]), V[x] ← V[x] − V[y] wrapping. -/
def execSubReg (x y : Reg) (s : State) : Host.Outcome State Fault Refusal :=
  .next ((s.setF (greaterFlag (s.readV x) (s.readV y))).setV x (s.readV x - s.readV y)).autoAdvance

/-- 8xy6 (R208): F ← V[x] & 1, V[x] ← V[x] >> 1; y takes no part. -/
def execShr (x _y : Reg) (s : State) : Host.Outcome State Fault Refusal :=
  .next ((s.setF (lowBitFlag (s.readV x))).setV x (s.readV x >>> 1)).autoAdvance

/-- 8xy7 (R209): F ← (V[y] > V[x]), V[x] ← V[y] − V[x] wrapping. -/
def execSubnReg (x y : Reg) (s : State) : Host.Outcome State Fault Refusal :=
  .next ((s.setF (greaterFlag (s.readV y) (s.readV x))).setV x (s.readV y - s.readV x)).autoAdvance

/-- 8xyE (R210): F ← bit 7 of V[x], V[x] ← trunc8(V[x] << 1); y takes no part. -/
def execShl (x _y : Reg) (s : State) : Host.Outcome State Fault Refusal :=
  .next ((s.setF (highBitFlag (s.readV x))).setV x (s.readV x <<< 1)).autoAdvance

/-- Cxkk (R211): V[x] ← this cycle's draw, with no mask by kk; RandomSourceFailure when the draw failed. -/
def execRnd (x : Reg) (_kk : Byte) (s : State) : Host.Outcome State Fault Refusal :=
  match s.random with
  | .byte b => .next (s.setV x b).autoAdvance
  | .failure => raise (.randomSourceFailure s.pc)

end Sys2Proof.Machine
end

