-- ==== Sys2Proof/Machine/ControlFlow.lean ====
section
/-! DEFINITION. Return, jumps, call and the register and immediate skips (42_control_flow.md). -/

namespace Sys2Proof.Machine

/-- 00EE (R170): pop PC, then the auto-advance; StackUnderflow when SP = 0. -/
def execRet (s : State) : Host.Outcome State Fault Refusal :=
  if s.sp = 0 then raise (.stackUnderflow s.pc) else .next s.pop.autoAdvance

/-- 1nnn (R171): PC ← addr, auto-advance suppressed. -/
def execJp (nnn : Word) (s : State) : Host.Outcome State Fault Refusal :=
  .next (s.setPC (address11 nnn))

/-- 2nnn (R172): push the call's own address, PC ← addr, auto-advance suppressed; StackOverflow when SP = 15. -/
def execCall (nnn : Word) (s : State) : Host.Outcome State Fault Refusal :=
  if s.sp = 15 then raise (.stackOverflow s.pc) else .next (s.push.setPC (address11 nnn))

/-- 3xkk (R173): skip if V[x] = kk. -/
def execSeImm (x : Reg) (kk : Byte) (s : State) : Host.Outcome State Fault Refusal :=
  .next (s.skipIf (s.readV x == kk)).autoAdvance

/-- 4xkk (R174): skip if V[x] ≠ kk. -/
def execSneImm (x : Reg) (kk : Byte) (s : State) : Host.Outcome State Fault Refusal :=
  .next (s.skipIf (s.readV x != kk)).autoAdvance

/-- 5xy0 (R175): skip if V[x] = V[y]. -/
def execSeReg (x y : Reg) (s : State) : Host.Outcome State Fault Refusal :=
  .next (s.skipIf (s.readV x == s.readV y)).autoAdvance

/-- 9xy0 (R176): compares V[x] with itself, so it never skips; y takes no part. -/
def execSneReg (x _y : Reg) (s : State) : Host.Outcome State Fault Refusal :=
  .next (s.skipIf (s.readV x != s.readV x)).autoAdvance

/-- Bnnn (R177): PC ← trunc8(V[0] + kk), auto-advance suppressed; F is not written. -/
def execJpV0 (nnn : Word) (s : State) : Host.Outcome State Fault Refusal :=
  .next (s.setPC (v0Target (s.readV 0) nnn))

end Sys2Proof.Machine
end

