-- ==== Sys2Proof/Machine/Display.lean ====
section
/-! DEFINITION. The display instructions 00E0 and Dxyn (41_display.md). -/

namespace Sys2Proof.Machine

/-- 00E0 (R150): every pixel off, RD set whatever the display held, auto-advance. -/
def execCls (s : State) : Host.Outcome State Fault Refusal :=
  .next s.clearDisplay.requestRedraw.autoAdvance

/-- Dxyn (R151): the n row addresses are checked before any pixel changes; the sprite is drawn at
(V[x] mod 64, V[y] mod 32); RD is set always; auto-advance. -/
def execDrw (x y : Reg) (n : Nat) (s : State) : Host.Outcome State Fault Refusal :=
  match s.rangeError n with
  | some e => raise e
  | none => .next (s.drawSprite (startColumn (s.readV x)) (startRow (s.readV y)) n).requestRedraw.autoAdvance

end Sys2Proof.Machine
end

