-- ==== Sys2Proof/Machine/IndexMemory.lean ====
section
/-! DEFINITION. The index register and the transfers between registers and memory (44_index_memory.md). None writes F, and
no transfer changes I (R246). -/

namespace Sys2Proof.Machine

/-- Annn (R240): I ← the 11-bit address. -/
def execLdI (nnn : Word) (s : State) : Host.Outcome State Fault Refusal :=
  .next (s.setI (address11 nnn)).autoAdvance

/-- Fx1E (R241): I ← trunc16(I + V[x]), F not written. -/
def execAddI (x : Reg) (s : State) : Host.Outcome State Fault Refusal :=
  .next (s.setI (s.i + (s.readV x).setWidth 16)).autoAdvance

/-- Fx29 (R242): I ← 5·x, the register index; no register is read. -/
def execLdF (x : Reg) (s : State) : Host.Outcome State Fault Refusal :=
  .next (s.setI (glyphAddress x)).autoAdvance

/-- Fx33 (R243): the three digits of V[x] at I, I+1, I+2, after both checks. -/
def execLdB (x : Reg) (s : State) : Host.Outcome State Fault Refusal :=
  match s.writeError 3 with
  | some e => raise e
  | none => .next (s.storeAtI (decimalDigits (s.readV x))).autoAdvance

/-- Fx55 (R244): V[0..x) at I, exclusive of index x, after both checks; x = 0 touches no memory. -/
def execStoreRegs (x : Reg) (s : State) : Host.Outcome State Fault Refusal :=
  match s.writeError x.val with
  | some e => raise e
  | none => .next (s.storeAtI (s.registersBelow x)).autoAdvance

/-- Fx65 (R245): V[0..x] from I, inclusive of index x, after the range check. -/
def execLoadRegs (x : Reg) (s : State) : Host.Outcome State Fault Refusal :=
  match s.rangeError (x.val + 1) with
  | some e => raise e
  | none => .next (s.loadFromI x).autoAdvance

end Sys2Proof.Machine
end

