-- ==== Sys2Proof/Machine/TimersKeys.lean ====
section
/-! DEFINITION. The timer and keypad instructions (45_timers_keys.md). The countdown came earlier in the cycle (40 R123). -/

namespace Sys2Proof.Machine

/-- Fx07 (R270): V[x] ← DT, as this cycle's countdown left it. -/
def execLdVxDT (x : Reg) (s : State) : Host.Outcome State Fault Refusal :=
  .next (s.setV x s.dt).autoAdvance

/-- Fx15 (R271): DT ← V[x]. -/
def execLdDTVx (x : Reg) (s : State) : Host.Outcome State Fault Refusal :=
  .next (s.setDT (s.readV x)).autoAdvance

/-- Fx18 (R272): ST ← V[x]. -/
def execLdSTVx (x : Reg) (s : State) : Host.Outcome State Fault Refusal :=
  .next (s.setST (s.readV x)).autoAdvance

/-- Ex9E (R273): skip if key V[x] is pressed; KeyIndexOutOfRange when V[x] ≥ 16. -/
def execSkp (x : Reg) (s : State) : Host.Outcome State Fault Refusal :=
  match keyIndex (s.readV x) with
  | none => raise (.keyIndexOutOfRange (s.readV x) s.pc)
  | some k => .next (s.skipIf (s.key k)).autoAdvance

/-- ExA1 (R274): skip if key V[x] is not pressed; KeyIndexOutOfRange when V[x] ≥ 16. -/
def execSknp (x : Reg) (s : State) : Host.Outcome State Fault Refusal :=
  match keyIndex (s.readV x) with
  | none => raise (.keyIndexOutOfRange (s.readV x) s.pc)
  | some k => .next (s.skipIf (!s.key k)).autoAdvance

/-- Fx0A (R275): V[x] ← the last pressed key of the scan; with none pressed the auto-advance is suppressed, so that the
next cycle runs the same instruction again. -/
def execLdVxK (x : Reg) (s : State) : Host.Outcome State Fault Refusal :=
  match s.scanKeys with
  | some k => .next (s.setV x (BitVec.ofNat 8 k.val)).autoAdvance
  | none => .next s

end Sys2Proof.Machine
end

