-- ==== Sys2Proof/Machine/Cycle.lean ====
section
/-! DEFINITION. One cycle of the engine (40_cycle.md R131), state construction (70_reset_and_hazards.md R340) and the
loader (70 R342). -/

namespace Sys2Proof.Machine

/-- The whole cycle of 40 R131: fetch and decode, timers, dispatch with the auto-advance, cycle_count. Its inputs KEYS and
RAND are the state's `keys` and `random`. At most one error, the first in this order (60 R312). -/
def cycle (s : State) : Host.Outcome State Fault Refusal :=
  match s.fetch with
  | .error e => raise e
  | .ok (high, low) =>
    match decode high low with
    | .error (.unknownOpcode full) => raise (.unknownOpcode full s.pc)
    | .ok i =>
      match exec i s.tickTimers with
      | .next t => .next t.countCycle
      | .fault e => .fault e
      | .refused r => .refused r

/-- A cycle, and then the host's turn before the next one (40 R132, 60 R322). -/
def cycleThenHost (s : State) : Host.Outcome State Fault Refusal :=
  match cycle s with
  | .next t => .next t.hostTurn
  | .fault e => .fault e
  | .refused r => .refused r

/-! ### Before the first cycle -/

/-- The launch parameter INIT (92 D2): what state construction leaves in the fields the spec gives no value for. -/
structure Init where
  v : Vector Byte 16
  f : Byte
  i : Word
  stack : Vector Word 16
  dt : Byte
  st : Byte
  display : Display
  rd : Bool
  mem : Memory
  deriving DecidableEq, Repr

/-- ZeroInit, the named premise of 92 D2: every INIT field 0 or false. -/
def Init.zero : Init where
  v := Vector.replicate 16 0
  f := 0
  i := 0
  stack := Vector.replicate 16 0
  dt := 0
  st := 0
  display := Vector.replicate 2048 false
  rd := false
  mem := []

/-- State construction (70 R340): the 80 font bytes in memory[0x000..0x050), PC = 0x200, SP = 0, cycle_count = 0, every
other field from INIT. The first cycle's inputs are the host move `first`, and `script` the moves after it. -/
def State.construct (font : Vector Byte 80) (init : Init) (first : HostMove) (script : List HostMove) : State where
  mem := Memory.writeBytes init.mem 0 font.toList
  v := init.v
  f := init.f
  pc := 0x200
  stack := init.stack
  sp := 0
  i := init.i
  dt := init.dt
  st := init.st
  display := init.display
  rd := init.rd
  keys := first.keys
  random := first.random
  cycleCount := 0
  hostMoves := script
  hostTurns := 0

/-- The loader (70 R342), outside the CORE: `none` is an image that cannot be read. It writes the image at 0x200 and
changes nothing else; more than 3584 bytes fail. -/
def load (image : Option (List Byte)) (s : State) : Host.Outcome State Fault Refusal :=
  match image with
  | none => raise .imageReadFailure
  | some bytes =>
    if bytes.length > 3584 then raise (.imageTooLarge bytes.length)
    else .next { s with mem := Memory.writeBytes s.mem 0x200 bytes }

/-- The codes of the error kinds (60 R301): labels, no rule depends on them. -/
def faultCode : Fault → Nat
  | .unknownOpcode _ _ => 1
  | .randomSourceFailure _ => 2
  | .stackOverflow _ => 3
  | .stackUnderflow _ => 4
  | .fetchOutOfRange _ => 5
  | .memoryOutOfRange _ _ => 6
  | .keyIndexOutOfRange _ _ => 7
  | .fontWrite _ _ => 8
  | .imageTooLarge _ => 16
  | .imageReadFailure => 17

end Sys2Proof.Machine
end

