-- ==== Sys2Proof/Machine/Step.lean ====
section
/-! DEFINITION. The step of the machine, and an instruction placed where the next step fetches it. -/

namespace Sys2Proof.Machine

/-- One step: one cycle (40 R131), then the host's turn (40 R132). -/
def step (s : State) : Host.Outcome State Fault Refusal := cycleThenHost s

/-- The instruction's bytes, numbered as the opcode table numbers them, stored at PC, where the next cycle fetches. -/
def State.withFetchWord (s : State) (nbits w : Nat) : State := s.placeAtPC (tableWordBytes nbits w)

end Sys2Proof.Machine
end

