-- ==== Sys2Proof/Safety.lean ====
section
/-! DEFINITION. The terms the statements use: the fields of a word as numbers (30_encoding.md R91), which words a row
decodes, runs, who may write what (10_state.md R20), the invariants, and what a program can observe. -/

namespace Sys2Proof

/-! ### The fields of a word (30 R91), and the rows -/

/-- x = w[11:8]. -/
def fieldX (w : Word) : Reg := Fin.ofNat 16 (w.toNat / 256)

/-- y = w[7:4]. -/
def fieldY (w : Word) : Reg := Fin.ofNat 16 (w.toNat / 16)

/-- n = w[3:0]. -/
def fieldN (w : Word) : Nat := w.toNat % 16

/-- kk = w[7:0]. -/
def fieldKK (w : Word) : Byte := BitVec.ofNat 8 w.toNat

/-- nnn = w[11:0]. -/
def fieldNNN (w : Word) : Word := BitVec.ofNat 16 (w.toNat % 0x1000)

/-- Every word that matches the mask and pattern decodes to the given instruction of its fields. -/
def rowDecodes (mask pattern : Word) (make : Word → Instr) : Prop :=
  ∀ w : Word, w &&& mask = pattern → decodeWord w = .ok (make w)

/-- The illegal words, by top nibble (the table of 30 R100). -/
def illegalWord (w : Word) : Prop :=
  (w.toNat / 0x1000 = 0x0 ∧ w.toNat ≠ 0x00E0 ∧ w.toNat ≠ 0x00EE) ∨
  (w.toNat / 0x1000 = 0x5 ∧ fieldN w ≠ 0) ∨
  (w.toNat / 0x1000 = 0x8 ∧ fieldN w ∈ [0x8, 0x9, 0xA, 0xB, 0xC, 0xD, 0xF]) ∨
  (w.toNat / 0x1000 = 0x9 ∧ fieldN w ≠ 0) ∨
  (w.toNat / 0x1000 = 0xE ∧ w.toNat % 0x100 ∉ [0x9E, 0xA1]) ∨
  (w.toNat / 0x1000 = 0xF ∧ w.toNat % 0x100 ∉ [0x07, 0x0A, 0x15, 0x18, 0x1E, 0x29, 0x33, 0x55, 0x65])

namespace Machine

/-! ### Steps and runs -/

/-- The word at PC and PC + 1, big-endian (20 R63). -/
def State.wordAtPC (s : State) : Word := wordOfBytes (Memory.read s.mem s.pc.toNat) (Memory.read s.mem (s.pc.toNat + 1))

/-- The state's next fetch is in range (40 R121). -/
def State.fetchesInRange (s : State) : Prop := s.pc.toNat < 0xFFF

/-- The state's next cycle runs the instruction i: its fetch is in range and its word decodes to i. -/
def State.runsNext (s : State) (i : Instr) : Prop := s.fetchesInRange ∧ decodeWord s.wordAtPC = .ok i

/-- k steps from s all complete and end in t. -/
def stepsTo : Nat → State → State → Prop
  | 0, s, t => t = s
  | k + 1, s, t => ∃ u, step s = .next u ∧ stepsTo k u t

/-- A safe run of k steps: no error ends it. -/
def safeFor (k : Nat) (s : State) : Prop := ∃ t, stepsTo k s t

/-! ### Who may write what (the "written by" column of 10 R20) -/

/-- The general registers an instruction writes: its V[x], and V[0] to V[x] for Fx65 (10 R20, R23). -/
def writesReg : Instr → Reg → Bool
  | .cls, _ => false
  | .ret, _ => false
  | .jp _, _ => false
  | .call _, _ => false
  | .seImm _ _, _ => false
  | .sneImm _ _, _ => false
  | .seReg _ _, _ => false
  | .ldImm x _, k => k == x
  | .addImm x _, k => k == x
  | .ldReg x _, k => k == x
  | .orReg x _, k => k == x
  | .andReg x _, k => k == x
  | .xorReg x _, k => k == x
  | .addReg x _, k => k == x
  | .subReg x _, k => k == x
  | .shr x _, k => k == x
  | .subnReg x _, k => k == x
  | .shl x _, k => k == x
  | .sneReg _ _, _ => false
  | .ldI _, _ => false
  | .jpV0 _, _ => false
  | .rnd x _, k => k == x
  | .drw _ _ _, _ => false
  | .skp _, _ => false
  | .sknp _, _ => false
  | .ldVxDT x, k => k == x
  | .ldVxK x, k => k == x
  | .ldDTVx _, _ => false
  | .ldSTVx _, _ => false
  | .addI _, _ => false
  | .ldF _, _ => false
  | .ldB _, _ => false
  | .storeRegs _, _ => false
  | .loadRegs x, k => decide (k ≤ x)

/-- The instructions that write F: 8xy4 to 8xy7 and 8xyE always, Dxyn on a collision (10 R24). -/
def writesFlag : Instr → Bool
  | .cls => false
  | .ret => false
  | .jp _ => false
  | .call _ => false
  | .seImm _ _ => false
  | .sneImm _ _ => false
  | .seReg _ _ => false
  | .ldImm _ _ => false
  | .addImm _ _ => false
  | .ldReg _ _ => false
  | .orReg _ _ => false
  | .andReg _ _ => false
  | .xorReg _ _ => false
  | .addReg _ _ => true
  | .subReg _ _ => true
  | .shr _ _ => true
  | .subnReg _ _ => true
  | .shl _ _ => true
  | .sneReg _ _ => false
  | .ldI _ => false
  | .jpV0 _ => false
  | .rnd _ _ => false
  | .drw _ _ _ => true
  | .skp _ => false
  | .sknp _ => false
  | .ldVxDT _ => false
  | .ldVxK _ => false
  | .ldDTVx _ => false
  | .ldSTVx _ => false
  | .addI _ => false
  | .ldF _ => false
  | .ldB _ => false
  | .storeRegs _ => false
  | .loadRegs _ => false

/-- How many bytes an instruction stores from memory[I] on (20 R62). -/
def storedBytes : Instr → Nat
  | .cls => 0
  | .ret => 0
  | .jp _ => 0
  | .call _ => 0
  | .seImm _ _ => 0
  | .sneImm _ _ => 0
  | .seReg _ _ => 0
  | .ldImm _ _ => 0
  | .addImm _ _ => 0
  | .ldReg _ _ => 0
  | .orReg _ _ => 0
  | .andReg _ _ => 0
  | .xorReg _ _ => 0
  | .addReg _ _ => 0
  | .subReg _ _ => 0
  | .shr _ _ => 0
  | .subnReg _ _ => 0
  | .shl _ _ => 0
  | .sneReg _ _ => 0
  | .ldI _ => 0
  | .jpV0 _ => 0
  | .rnd _ _ => 0
  | .drw _ _ _ => 0
  | .skp _ => 0
  | .sknp _ => 0
  | .ldVxDT _ => 0
  | .ldVxK _ => 0
  | .ldDTVx _ => 0
  | .ldSTVx _ => 0
  | .addI _ => 0
  | .ldF _ => 0
  | .ldB _ => 3
  | .storeRegs x => x.val
  | .loadRegs _ => 0

/-- The value PC takes when instruction i completes from s, with PC the address of i (40 R133). -/
def nextPC (i : Instr) (s : State) : Word :=
  match i with
  | .cls => s.pc + 2
  | .ret => s.stack[s.sp.val] + 2
  | .jp nnn => BitVec.ofNat 16 (nnn.toNat % 0x800)
  | .call nnn => BitVec.ofNat 16 (nnn.toNat % 0x800)
  | .seImm x kk => if s.readV x = kk then s.pc + 4 else s.pc + 2
  | .sneImm x kk => if s.readV x ≠ kk then s.pc + 4 else s.pc + 2
  | .seReg x y => if s.readV x = s.readV y then s.pc + 4 else s.pc + 2
  | .ldImm _ _ => s.pc + 2
  | .addImm _ _ => s.pc + 2
  | .ldReg _ _ => s.pc + 2
  | .orReg _ _ => s.pc + 2
  | .andReg _ _ => s.pc + 2
  | .xorReg _ _ => s.pc + 2
  | .addReg _ _ => s.pc + 2
  | .subReg _ _ => s.pc + 2
  | .shr _ _ => s.pc + 2
  | .subnReg _ _ => s.pc + 2
  | .shl _ _ => s.pc + 2
  | .sneReg _ _ => s.pc + 2
  | .ldI _ => s.pc + 2
  | .jpV0 nnn => BitVec.ofNat 16 (((s.readV 0).toNat + nnn.toNat) % 256)
  | .rnd _ _ => s.pc + 2
  | .drw _ _ _ => s.pc + 2
  | .skp x => if ∃ k : Fin 16, (s.readV x).toNat = k.val ∧ s.key k = true then s.pc + 4 else s.pc + 2
  | .sknp x => if ∃ k : Fin 16, (s.readV x).toNat = k.val ∧ s.key k = false then s.pc + 4 else s.pc + 2
  | .ldVxDT _ => s.pc + 2
  | .ldVxK _ => if ∀ k, s.key k = false then s.pc else s.pc + 2
  | .ldDTVx _ => s.pc + 2
  | .ldSTVx _ => s.pc + 2
  | .addI _ => s.pc + 2
  | .ldF _ => s.pc + 2
  | .ldB _ => s.pc + 2
  | .storeRegs _ => s.pc + 2
  | .loadRegs _ => s.pc + 2

/-! ### The invariants -/

/-- Memory is in its canonical form. -/
def State.MemCanonical (s : State) : Prop := Memory.wf s.mem = true

/-- F holds 0 or 1 (10 R24). -/
def State.FlagIsBit (s : State) : Prop := s.f = 0 ∨ s.f = 1

/-- PC is far below 0xFFFF, so that no sum of PC wraps (10 R25). -/
def State.PcDoesNotWrap (s : State) : Prop := s.pc.toNat ≤ 0x1002

/-- Every live stack entry, S[1] to S[SP], is the address of an instruction that was fetched (10 R27). -/
def State.LiveStackInRange (s : State) : Prop := ∀ k : Fin 16, 0 < k → k ≤ s.sp → s.stack[k.val].toNat ≤ 0xFFE

/-- The machine's invariant. -/
structure State.Inv (s : State) : Prop where
  memCanonical : s.MemCanonical
  flagIsBit : s.FlagIsBit
  pcDoesNotWrap : s.PcDoesNotWrap
  liveStackInRange : s.LiveStackInRange

/-! ### The sprite of Dxyn (41 R151 to R153) -/

/-- The rows from the sprite's start down to row r, wrapping (41 R153). -/
def rowsBelowStart (vy : Byte) (r : Fin 32) : Nat := (r.val + 32 - vy.toNat % 32) % 32

/-- The columns from the sprite's start right to column c, wrapping (41 R153). -/
def columnsRightOfStart (vx : Byte) (c : Fin 64) : Nat := (c.val + 64 - vx.toNat % 64) % 64

/-- The n-row sprite at memory[I..], drawn at (V[x] mod 64, V[y] mod 32), has a set bit on pixel (c, r); bit 7 of a row
byte is its leftmost column (41 R152). -/
def spriteCovers (s : State) (x y : Reg) (n : Nat) (c : Fin 64) (r : Fin 32) : Bool :=
  decide (rowsBelowStart (s.readV y) r < n) && decide (columnsRightOfStart (s.readV x) c < 8) &&
    (Memory.read s.mem (s.i.toNat + rowsBelowStart (s.readV y) r)).getLsbD (7 - columnsRightOfStart (s.readV x) c)

/-! ### What a program can observe -/

/-- The state without what no instruction reads: F (10 R24), ST (10 R30), RD (10 R33) and cycle_count (10 R35). -/
def State.programView (s : State) : State := { s with f := 0, st := 0, rd := false, cycleCount := 0 }

/-- An outcome without what no instruction reads. -/
def viewOutcome : Host.Outcome State Fault Refusal → Host.Outcome State Fault Refusal
  | .next t => .next t.programView
  | .fault e => .fault e
  | .refused r => .refused r

end Machine

end Sys2Proof
end

