-- ==== Sys2Proof/Certificates/Slice0/Obligations.lean ====
section
/-! DEFINITION. The statements for the provers. Each docstring names the rule or section of spec/ it formalises; where a
clause rests on one of the spec's own decisions (92_eei_decisions.md D<n>) or on a choice of the model's, it says so. -/

open Sys2Proof Sys2Proof.Machine

/-! ### Decoding and encoding -/

/-- 30 R91, R92, R98, R102: decoding the word of a well-formed instruction gives the instruction back, with every operand
at every value its field admits. -/
def Obligations.DecodeUndoesEncode : Prop :=
  ∀ i : Instr, i.wellFormed = true → decodeWord (encode i) = .ok i

/-- 30 R91, R98, R99: what a word decodes to is well-formed and encodes to that word: no bit of a legal word is dropped,
nor of a field that takes no part in the semantics. -/
def Obligations.EncodeUndoesDecode : Prop :=
  ∀ (w : Word) (i : Instr), decodeWord w = .ok i → i.wellFormed = true ∧ encode i = w

/-- 30 R96 (that no word matches two rows is the spec's own derivation): a row matches when full & mask = pattern; the
row that matches gives the instruction; no word matches two rows; and the order of the list does not change any result.
-/
def Obligations.DispatchRowsAreExclusive : Prop :=
  (∀ r ∈ rows, ∀ w : Word, r.hits w = true ↔ w &&& r.mask = r.pattern) ∧
  (∀ r ∈ rows, ∀ w : Word, r.hits w = true → decodeWord w = .ok (r.make (decodeFields (highByte w) (lowByte w)))) ∧
  rows.Pairwise (fun a b => ∀ w : Word, ¬ (w &&& a.mask = a.pattern ∧ w &&& b.mask = b.pattern)) ∧
  (∀ l : List Row, l.Perm rows → ∀ w : Word, l.find? (fun r => r.hits w) = rows.find? (fun r => r.hits w))

/-- 30 R92: the decoder's record for every two bytes, and the bitwise identities that hold "for all 65536 raw opcode
values". -/
def Obligations.DecoderFieldIdentities : Prop :=
  ∀ high low : Byte,
    (decodeFields high low).full.toNat = high.toNat * 256 + low.toNat ∧
    (decodeFields high low).address = (decodeFields high low).full &&& 0x7FF ∧
    (decodeFields high low).nibble = low.toNat % 16 ∧
    (decodeFields high low).x.val = high.toNat % 16 ∧
    (decodeFields high low).y.val = low.toNat / 16 ∧
    (decodeFields high low).immediate = low ∧
    BitVec.ofNat 16 (decodeFields high low).x.val = ((decodeFields high low).full >>> 8) &&& 0xF ∧
    BitVec.ofNat 16 (decodeFields high low).y.val = ((decodeFields high low).full >>> 4) &&& 0xF ∧
    (decodeFields high low).immediate.setWidth 16 = (decodeFields high low).full &&& 0xFF ∧
    BitVec.ofNat 16 (decodeFields high low).nibble = (decodeFields high low).full &&& 0xF

/-- 30 R100 (its table by top nibble, without its counts): a word is refused exactly when the table calls it illegal.
That every 0nnn word but 00E0 and 00EE is illegal rests on the exact match of those two rows, the spec's own decision
D27, which the model follows (assumption 6, DESIGN CHOICE). -/
def Obligations.IllegalWordsAreRefused : Prop :=
  ∀ w : Word, decodeWord w = .error (.unknownOpcode w) ↔ illegalWord w

/-- 30 R99: the fields that take no part in the semantics: the decoder accepts every value of them (the row's mask does
not keep them), and the instruction's outcome is the same for every value. -/
def Obligations.IgnoredFieldsHaveNoEffect : Prop :=
  (rowDecodes 0xF000 0x1000 (fun w => .jp (fieldNNN w)) ∧
    ∀ m n : Word, m.toNat % 0x800 = n.toNat % 0x800 → ∀ s, exec (.jp m) s = exec (.jp n) s) ∧
  (rowDecodes 0xF000 0x2000 (fun w => .call (fieldNNN w)) ∧
    ∀ m n : Word, m.toNat % 0x800 = n.toNat % 0x800 → ∀ s, exec (.call m) s = exec (.call n) s) ∧
  (rowDecodes 0xF000 0xA000 (fun w => .ldI (fieldNNN w)) ∧
    ∀ m n : Word, m.toNat % 0x800 = n.toNat % 0x800 → ∀ s, exec (.ldI m) s = exec (.ldI n) s) ∧
  (rowDecodes 0xF000 0xB000 (fun w => .jpV0 (fieldNNN w)) ∧
    ∀ m n : Word, m.toNat % 0x100 = n.toNat % 0x100 → ∀ s, exec (.jpV0 m) s = exec (.jpV0 n) s) ∧
  (rowDecodes 0xF000 0xC000 (fun w => .rnd (fieldX w) (fieldKK w)) ∧
    ∀ x kk kk' s, exec (.rnd x kk) s = exec (.rnd x kk') s) ∧
  (rowDecodes 0xF00F 0x8006 (fun w => .shr (fieldX w) (fieldY w)) ∧ ∀ x y y' s, exec (.shr x y) s = exec (.shr x y') s) ∧
  (rowDecodes 0xF00F 0x800E (fun w => .shl (fieldX w) (fieldY w)) ∧ ∀ x y y' s, exec (.shl x y) s = exec (.shl x y') s) ∧
  (rowDecodes 0xF00F 0x9000 (fun w => .sneReg (fieldX w) (fieldY w)) ∧
    ∀ x y y' s, exec (.sneReg x y) s = exec (.sneReg x y') s) ∧
  rowDecodes 0xFFFF 0x00E0 (fun _ => .cls) ∧ rowDecodes 0xFFFF 0x00EE (fun _ => .ret)

/-- 30 R98: one word of each family, written out from its row, decodes to the instruction it stands for; 0x0000, 0x00E1
and 0x0123 are no instructions (R97, the spec's own decision D27, assumption 6). -/
def Obligations.SampleWordsDecode : Prop :=
  decodeWord 0x00E0 = .ok .cls ∧ decodeWord 0xDAB7 = .ok (.drw 10 11 7) ∧ decodeWord 0x1A00 = .ok (.jp 0xA00) ∧
  decodeWord 0x8124 = .ok (.addReg 1 2) ∧ decodeWord 0xA2F0 = .ok (.ldI 0x2F0) ∧ decodeWord 0xF533 = .ok (.ldB 5) ∧
  decodeWord 0xE19E = .ok (.skp 1) ∧ decodeWord 0xF30A = .ok (.ldVxK 3) ∧
  decodeWord 0x0000 = .error (.unknownOpcode 0x0000) ∧ decodeWord 0x00E1 = .error (.unknownOpcode 0x00E1) ∧
  decodeWord 0x0123 = .error (.unknownOpcode 0x0123)

/-! ### The cycle -/

/-- 40 R131, 30 R63: when the word at PC decodes to i, the step is exec of i on the state whose timers have counted down,
and, if that completes, one more completed cycle and then the host's turn. (That the host moves after the cycle, inside
the step, is the model's choice, assumption 8.) -/
def Obligations.StepRunsTheDecodedInstruction : Prop :=
  ∀ (s : State) (i : Instr), s.pc.toNat + 1 ≤ 0xFFF →
    decode (Memory.read s.mem s.pc.toNat) (Memory.read s.mem (s.pc.toNat + 1)) = .ok i →
    step s = match exec i s.tickTimers with
      | .next t => .next t.countCycle.hostTurn
      | .fault e => .fault e
      | .refused r => .refused r

/-- 60 R322 and the model's choice of assumption 8: the host's turn sets the keys and the draw of the next cycle and may
clear RD, by the oldest scripted move if there is one, and changes nothing else. -/
def Obligations.HostTurnWritesOnlyItsInputs : Prop :=
  (∀ (s : State) (h : HostMove) (hs : List HostMove), s.hostMoves = h :: hs →
    s.hostTurn = { s with keys := h.keys, random := h.random, rd := s.rd && !h.clearsRedraw, hostMoves := hs }) ∧
  (∀ s : State, s.hostMoves = [] → ∃ h : HostMove,
    s.hostTurn = { s with keys := h.keys, random := h.random, rd := s.rd && !h.clearsRedraw,
                          hostTurns := s.hostTurns + 1 })

/-- 60 R306 (the spec's own decision D5): a fetch at PC ≥ 0xFFF ends the run with FetchOutOfRange(PC). -/
def Obligations.FetchOutOfRangeEndsTheRun : Prop :=
  ∀ s : State, 0xFFF ≤ s.pc.toNat → step s = .fault (.fetchOutOfRange s.pc)

/-- 60 R302, 40 R128: a fetched word that matches no row ends the run with UnknownOpcode(word, PC). (That 00E0 and 00EE
are rows of mask 0xFFFF is the spec's own decision D27, assumption 6.) -/
def Obligations.UnknownOpcodeEndsTheRun : Prop :=
  ∀ s : State, s.fetchesInRange → (∀ r ∈ rows, s.wordAtPC &&& r.mask ≠ r.pattern) →
    step s = .fault (.unknownOpcode s.wordAtPC s.pc)

/-- 60 R301, R312 (kinds 3 to 8 are the spec's own decisions D3 to D8, and which 0nnn words are illegal is D27;
assumption 6): a step never refuses, and every error it ends in is
the fetch's, the dispatch's, or the running instruction's own, with the info the spec records. -/
def Obligations.EveryErrorIsTheRunningInstructions : Prop :=
  (∀ (s : State) (r : Refusal), step s ≠ .refused r) ∧
  (∀ (s : State) (e : Fault), step s = .fault e →
    (¬ s.fetchesInRange ∧ e = .fetchOutOfRange s.pc) ∨
    (s.fetchesInRange ∧ illegalWord s.wordAtPC ∧ e = .unknownOpcode s.wordAtPC s.pc) ∨
    (∃ i, s.runsNext i ∧
      ((∃ nnn, i = .call nnn ∧ e = .stackOverflow s.pc) ∨
       (i = .ret ∧ e = .stackUnderflow s.pc) ∨
       (∃ x kk, i = .rnd x kk ∧ e = .randomSourceFailure s.pc) ∨
       (∃ x, (i = .skp x ∨ i = .sknp x) ∧ e = .keyIndexOutOfRange (s.readV x) s.pc) ∨
       (((∃ x y n, i = .drw x y n) ∨ ∃ x, i = .ldB x ∨ i = .storeRegs x ∨ i = .loadRegs x) ∧
         e = .memoryOutOfRange (max s.i.toNat 0x1000) s.pc) ∨
       (∃ x, (i = .ldB x ∨ i = .storeRegs x) ∧ e = .fontWrite s.i s.pc))))

/-- 40 R123, 45 R271, R272: a completed step counts each timer down once, never below 0; a timer that the instruction
loads holds the loaded value, not counted down in the cycle that loads it. -/
def Obligations.TimersCountDownOncePerCycle : Prop :=
  ∀ (s t : State) (i : Instr), s.runsNext i → step s = .next t →
    (∀ x, i = .ldDTVx x → t.dt = s.readV x) ∧ ((∀ x, i ≠ .ldDTVx x) → t.dt.toNat = s.dt.toNat - 1) ∧
    (∀ x, i = .ldSTVx x → t.st = s.readV x) ∧ ((∀ x, i ≠ .ldSTVx x) → t.st.toNat = s.st.toNat - 1)

/-- 40 R130 (the spec's own decision D14): every step that completes, a key-wait's too, adds 1 to cycle_count. -/
def Obligations.EveryCompletedCycleIsCounted : Prop :=
  ∀ s t : State, step s = .next t → t.cycleCount = s.cycleCount + 1

/-- 40 R133, which the spec derives from R125, R126 and the rules of 42 and 45: the value PC takes when an instruction
completes. Its 16-bit sums are the spec's own decision D24 (assumption 6, DESIGN CHOICE). -/
def Obligations.NextPCTable : Prop :=
  ∀ (i : Instr) (s t : State), exec i s = .next t → t.pc = nextPC i s

/-! ### The frame: who may write what (10 R20, 40 R127) -/

/-- 10 R20, R22, R23: a general register that is not a destination of the instruction keeps its value. -/
def Obligations.GeneralRegisterFrame : Prop :=
  ∀ (i : Instr) (s t : State), exec i s = .next t → ∀ k : Reg, writesReg i k = false → t.readV k = s.readV k

/-- 10 R24 (that only 0 and 1 are written is the spec's own derivation): F keeps its value but for 8xy4 to 8xy7, 8xyE
and Dxyn; what is written is 0 or 1; Dxyn never writes 0. -/
def Obligations.FlagFrame : Prop :=
  ∀ (i : Instr) (s t : State), exec i s = .next t →
    (writesFlag i = false → t.f = s.f) ∧ (t.f = s.f ∨ t.f = 0 ∨ t.f = 1) ∧
    (∀ x y n, i = .drw x y n → t.f = s.f ∨ t.f = 1)

/-- 20 R62: every byte of memory keeps its value but for the bytes Fx33 and Fx55 store from I on. -/
def Obligations.MemoryFrame : Prop :=
  ∀ (i : Instr) (s t : State), exec i s = .next t →
    ∀ a : Nat, (a < s.i.toNat ∨ s.i.toNat + storedBytes i ≤ a) → Memory.read t.mem a = Memory.read s.mem a

/-- 41 R155: RD is set by every Dxyn and every 00E0, also when no pixel changes, and by nothing else; and no other
instruction changes a pixel. -/
def Obligations.RedrawIsSetByDrawAndClear : Prop :=
  (∀ (s t : State), exec .cls s = .next t → t.rd = true) ∧
  (∀ (x y : Reg) (n : Nat) (s t : State), exec (.drw x y n) s = .next t → t.rd = true) ∧
  (∀ (i : Instr) (s t : State), exec i s = .next t → i ≠ .cls → (∀ x y n, i ≠ .drw x y n) →
    t.rd = s.rd ∧ t.display = s.display)

/-- 10 R27, R28 (SP stays in 0..15 by the spec's own decisions D3 and D4): only 2nnn writes the stack, one entry above
the old SP, so never S[0]; only 2nnn and 00EE move SP. -/
def Obligations.StackFrame : Prop :=
  ∀ (i : Instr) (s t : State), exec i s = .next t →
    ((∀ nnn, i ≠ .call nnn) → t.stack = s.stack) ∧
    ((∀ nnn, i ≠ .call nnn) → i ≠ .ret → t.sp = s.sp) ∧
    (∀ nnn, i = .call nnn → ∀ k : Fin 16, k.val ≠ s.sp.val + 1 → t.stack[k.val] = s.stack[k.val]) ∧
    t.stack[0] = s.stack[0]

/-- 10 R20, R26, R30, R34: I is written by Annn, Fx1E and Fx29 only, DT by Fx15 and ST by Fx18 only (the countdown is the
cycle's, not the instruction's), and no instruction writes the keys, the draw, cycle_count or the host's script. -/
def Obligations.SpecialRegisterFrame : Prop :=
  ∀ (i : Instr) (s t : State), exec i s = .next t →
    ((∀ nnn, i ≠ .ldI nnn) → (∀ x, i ≠ .addI x) → (∀ x, i ≠ .ldF x) → t.i = s.i) ∧
    ((∀ x, i ≠ .ldDTVx x) → t.dt = s.dt) ∧ ((∀ x, i ≠ .ldSTVx x) → t.st = s.st) ∧
    t.keys = s.keys ∧ t.random = s.random ∧ t.cycleCount = s.cycleCount ∧
    t.hostMoves = s.hostMoves ∧ t.hostTurns = s.hostTurns

/-! ### Invariants -/

/-- The invariant holds right after reset. That F is 0 there and memory canonical holds by the model's choice of zeros
for the launch values INIT, which the spec leaves open (92 D2; assumptions 1 and 2, DESIGN CHOICE); that no stack entry
is live rests on SP = 0, which 10 R28 derives (assumption 4, DEDUCED). `Obligations.ConstructionMeetsTheInvariant` says
it of every INIT. -/
def Obligations.ResetMeetsTheInvariant : Prop := State.reset.Inv

/-- The invariant holds after state construction with any font and any INIT whose F is 0 or 1 and whose memory is
canonical (10 R25, 70 R340; SP = 0 there is derived in 10 R28, assumption 4, DEDUCED). -/
def Obligations.ConstructionMeetsTheInvariant : Prop :=
  ∀ (font : Vector Byte 80) (init : Init) (first : HostMove) (script : List HostMove),
    Memory.wf init.mem = true → (init.f = 0 ∨ init.f = 1) → (State.construct font init first script).Inv

/-- 10 R24, R25, R27 (their derived sentences, and D3, D4 and D24, assumption 6): every step keeps the invariant: memory
stays canonical, F stays 0 or 1, PC stays so low that no sum of PC wraps, and every live stack entry is an address that
was fetched. -/
def Obligations.EveryStepKeepsTheInvariant : Prop :=
  ∀ s t : State, s.Inv → step s = .next t → t.Inv

/-- 20 R66 (the spec's own decision D8): along every run, of any length and from any state, no byte of the font changes.
-/
def Obligations.NoRunChangesTheFont : Prop :=
  ∀ (k : Nat) (s t : State), stepsTo k s t → ∀ a : Nat, a < 0x50 → Memory.read t.mem a = Memory.read s.mem a

/-- 10 R24 (the spec's own derivation), R30, R33, R35: no program can observe F, ST, RD or cycle_count: two states that
differ in nothing else end every run in the same error or in states that differ in nothing else. -/
def Obligations.NoProgramObservesFlagSoundOrRedraw : Prop :=
  ∀ (k : Nat) (a b : State), a.programView = b.programView →
    viewOutcome (Host.Core.run Sys2Proof.core k a) = viewOutcome (Host.Core.run Sys2Proof.core k b)

/-! ### Before the first cycle -/

/-- 70 R340 (SP, cycle_count, INIT and FONT as its decisions D2, D10, D14 and 10 R28 give them): what state construction
leaves, for every font and every INIT. -/
def Obligations.StateConstruction : Prop :=
  ∀ (font : Vector Byte 80) (init : Init) (first : HostMove) (script : List HostMove),
    let s := State.construct font init first script
    (∀ k : Fin 80, Memory.read s.mem k.val = font[k.val]) ∧
    (∀ a : Nat, 80 ≤ a → Memory.read s.mem a = Memory.read init.mem a) ∧
    s.pc = 0x200 ∧ s.sp = 0 ∧ s.cycleCount = 0 ∧ s.v = init.v ∧ s.f = init.f ∧ s.i = init.i ∧ s.stack = init.stack ∧
    s.dt = init.dt ∧ s.st = init.st ∧ s.display = init.display ∧ s.rd = init.rd

/-- 70 R340, R341: reset leaves PC = 0x200 (where the first cycle fetches); SP = 0, which 10 R28 derives (assumption 4,
DEDUCED); and cycle_count = 0, the spec's own decision D14 (assumption 5, DESIGN CHOICE). The zero of every general
register and of memory outside the font is the model's choice (assumptions 1 and 2, DESIGN CHOICE), and the font bytes
are the family's (assumption 3, PRESUMED). -/
def Obligations.ResetState : Prop :=
  State.reset.pc = 0x200 ∧ State.reset.sp = 0 ∧ State.reset.cycleCount = 0 ∧
  (List.range 40).map (Memory.read State.reset.mem) =
    [0xF0, 0x90, 0x90, 0x90, 0xF0, 0x20, 0x60, 0x20, 0x20, 0x70, 0xF0, 0x10, 0xF0, 0x80, 0xF0, 0xF0, 0x10, 0xF0, 0x10, 0xF0,
     0x90, 0x90, 0xF0, 0x10, 0x10, 0xF0, 0x80, 0xF0, 0x10, 0xF0, 0xF0, 0x80, 0xF0, 0x90, 0xF0, 0xF0, 0x10, 0x20, 0x40, 0x40] ∧
  (List.range 40).map (fun k => Memory.read State.reset.mem (40 + k)) =
    [0xF0, 0x90, 0xF0, 0x90, 0xF0, 0xF0, 0x90, 0xF0, 0x10, 0xF0, 0xF0, 0x90, 0xF0, 0x90, 0x90, 0xE0, 0x90, 0xE0, 0x90, 0xE0,
     0xF0, 0x80, 0x80, 0x80, 0xF0, 0xE0, 0x90, 0x90, 0x90, 0xE0, 0xF0, 0x80, 0xF0, 0x80, 0xF0, 0xF0, 0x80, 0xF0, 0x80, 0x80] ∧
  (∀ a : Nat, 80 ≤ a → Memory.read State.reset.mem a = 0) ∧
  (∀ k : Reg, State.reset.readV k = 0)

/-- 70 R342 (that it changes nothing else is the spec's own derivation): the loader fails on an image it cannot read or of
more than 3584 bytes; else it writes the image at 0x200 and changes no other byte and no other field. -/
def Obligations.LoaderWritesTheImage : Prop :=
  (∀ s : State, load none s = .fault .imageReadFailure) ∧
  (∀ (s : State) (image : List Byte), 3584 < image.length → load (some image) s = .fault (.imageTooLarge image.length)) ∧
  (∀ (s : State) (image : List Byte), image.length ≤ 3584 → ∃ t, load (some image) s = .next t ∧
    t = { s with mem := t.mem } ∧ (∀ (k : Nat) (h : k < image.length), Memory.read t.mem (0x200 + k) = image[k]) ∧
    (∀ a : Nat, (a < 0x200 ∨ 0x200 + image.length ≤ a) → Memory.read t.mem a = Memory.read s.mem a))

/-! ### Display instructions (41) -/

/-- 41 R150: 00E0. -/
def Obligations.ClearTurnsEveryPixelOff : Prop :=
  rowDecodes 0xFFFF 0x00E0 (fun _ => .cls) ∧
  ∀ s : State, ∃ t, exec .cls s = .next t ∧ (∀ c r, Display.pix t.display c r = false) ∧
    t = { s with display := t.display, rd := true, pc := s.pc + 2 }

/-- 41 R151, R153, R154 (the bit order of R152 is the spec's own decision D9, the range error D6): Dxyn inverts exactly
the pixels under a set sprite bit, sets F exactly when one of them was on, sets RD, and changes nothing else; a sprite
out of memory's range is an error and no draw. -/
def Obligations.DrawInvertsTheSpritesPixels : Prop :=
  rowDecodes 0xF000 0xD000 (fun w => .drw (fieldX w) (fieldY w) (fieldN w)) ∧
  (∀ (s : State) (x y : Reg) (n : Nat), n < 16 → (n = 0 ∨ s.i.toNat + n ≤ 0x1000) →
    ∃ t, exec (.drw x y n) s = .next t ∧
      (∀ c r, Display.pix t.display c r = (Display.pix s.display c r ^^ spriteCovers s x y n c r)) ∧
      ((∃ c r, spriteCovers s x y n c r = true ∧ Display.pix s.display c r = true) → t.f = 1) ∧
      ((¬ ∃ c r, spriteCovers s x y n c r = true ∧ Display.pix s.display c r = true) → t.f = s.f) ∧
      t = { s with display := t.display, f := t.f, rd := true, pc := s.pc + 2 }) ∧
  (∀ (s : State) (x y : Reg) (n : Nat), 0 < n → n < 16 → 0x1000 < s.i.toNat + n →
    exec (.drw x y n) s = .fault (.memoryOutOfRange (max s.i.toNat 0x1000) s.pc))

/-- 95 W6, 41 R151, R154: drawing the same sprite twice gives the display back; on a blank display the first draw leaves
F, and the second sets it if the sprite has a set bit. -/
def Obligations.DrawingTwiceGivesTheDisplayBack : Prop :=
  ∀ (s : State) (x y : Reg) (n : Nat), n < 16 → (n = 0 ∨ s.i.toNat + n ≤ 0x1000) →
    ∃ t u, exec (.drw x y n) s = .next t ∧ exec (.drw x y n) t = .next u ∧ u.display = s.display ∧
      ((∀ c r, Display.pix s.display c r = false) → t.f = s.f ∧ ((∃ c r, spriteCovers s x y n c r = true) → u.f = 1))

/-! ### Control flow (42) -/

/-- 42 R170 (StackUnderflow is the spec's own decision D4): 00EE pops PC and then advances, so that it resumes after the
call; S[SP] keeps its value. -/
def Obligations.ReturnPopsThenAdvances : Prop :=
  rowDecodes 0xFFFF 0x00EE (fun _ => .ret) ∧
  (∀ s : State, s.sp ≠ 0 → exec .ret s = .next { s with pc := s.stack[s.sp.val] + 2, sp := s.sp - 1 }) ∧
  (∀ s : State, s.sp = 0 → exec .ret s = .fault (.stackUnderflow s.pc))

/-- 42 R171: 1nnn loads PC with 11 bits; bit 11 has no effect. -/
def Obligations.JumpLoadsElevenBits : Prop :=
  rowDecodes 0xF000 0x1000 (fun w => .jp (fieldNNN w)) ∧
  ∀ (s : State) (nnn : Word), exec (.jp nnn) s = .next { s with pc := BitVec.ofNat 16 (nnn.toNat % 0x800) }

/-- 42 R172 (StackOverflow is the spec's own decision D3): 2nnn pushes its own address one entry above SP and jumps. -/
def Obligations.CallPushesItsOwnAddress : Prop :=
  rowDecodes 0xF000 0x2000 (fun w => .call (fieldNNN w)) ∧
  (∀ (s : State) (nnn : Word) (k : Fin 16), k.val = s.sp.val + 1 → exec (.call nnn) s =
    .next { s with sp := k, stack := s.stack.set k.val s.pc, pc := BitVec.ofNat 16 (nnn.toNat % 0x800) }) ∧
  (∀ (s : State) (nnn : Word), s.sp.val = 15 → exec (.call nnn) s = .fault (.stackOverflow s.pc))

/-- 95 W4, 42 R170, R172: a call that completes and is followed at once by a return resumes right after the call, with
SP and every stack entry but the pushed one as before the call. -/
def Obligations.CallThenReturnResumesAfterTheCall : Prop :=
  ∀ (s : State) (nnn : Word), s.runsNext (.call nnn) → s.sp.val < 15 →
    ∃ t, step s = .next t ∧ (t.runsNext .ret →
      ∃ u, step t = .next u ∧ u.pc = s.pc + 2 ∧ u.sp = s.sp ∧
        ∀ k : Fin 16, k.val ≠ s.sp.val + 1 → u.stack[k.val] = s.stack[k.val])

/-- 42 R173, R174, R175: the skips on a comparison pass over one word when it holds, and change PC alone. -/
def Obligations.CompareSkipsPassOneWord : Prop :=
  (rowDecodes 0xF000 0x3000 (fun w => .seImm (fieldX w) (fieldKK w)) ∧ ∀ (s : State) (x : Reg) (kk : Byte),
    exec (.seImm x kk) s = .next { s with pc := if s.v[x.val] = kk then s.pc + 4 else s.pc + 2 }) ∧
  (rowDecodes 0xF000 0x4000 (fun w => .sneImm (fieldX w) (fieldKK w)) ∧ ∀ (s : State) (x : Reg) (kk : Byte),
    exec (.sneImm x kk) s = .next { s with pc := if s.v[x.val] = kk then s.pc + 2 else s.pc + 4 }) ∧
  (rowDecodes 0xF00F 0x5000 (fun w => .seReg (fieldX w) (fieldY w)) ∧ ∀ (s : State) (x y : Reg),
    exec (.seReg x y) s = .next { s with pc := if s.v[x.val] = s.v[y.val] then s.pc + 4 else s.pc + 2 })

/-- 42 R176: 9xy0 never skips, whatever x, y and the registers are. -/
def Obligations.RegisterSneNeverSkips : Prop :=
  rowDecodes 0xF00F 0x9000 (fun w => .sneReg (fieldX w) (fieldY w)) ∧
  ∀ (s : State) (x y : Reg), exec (.sneReg x y) s = .next { s with pc := s.pc + 2 }

/-- 42 R177: Bnnn jumps to V[0] plus the address's low byte, truncated to 8 bits; F is not written. -/
def Obligations.V0JumpTruncatesToEightBits : Prop :=
  rowDecodes 0xF000 0xB000 (fun w => .jpV0 (fieldNNN w)) ∧
  ∀ (s : State) (nnn : Word), exec (.jpV0 nnn) s =
    .next { s with pc := BitVec.ofNat 16 ((s.v[0].toNat + nnn.toNat % 256) % 256) }

/-! ### Register loads and the ALU (43) -/

/-- 43 R200, R202: 6xkk loads the immediate and 8xy0 copies a register. -/
def Obligations.LoadsWriteTheirRegister : Prop :=
  (rowDecodes 0xF000 0x6000 (fun w => .ldImm (fieldX w) (fieldKK w)) ∧ ∀ (s : State) (x : Reg) (kk : Byte),
    exec (.ldImm x kk) s = .next { s with v := s.v.set x.val kk, pc := s.pc + 2 }) ∧
  (rowDecodes 0xF00F 0x8000 (fun w => .ldReg (fieldX w) (fieldY w)) ∧ ∀ (s : State) (x y : Reg),
    exec (.ldReg x y) s = .next { s with v := s.v.set x.val s.v[y.val], pc := s.pc + 2 })

/-- 43 R201: 7xkk adds modulo 256 and writes no flag. -/
def Obligations.AddImmediateWrapsWithoutFlag : Prop :=
  rowDecodes 0xF000 0x7000 (fun w => .addImm (fieldX w) (fieldKK w)) ∧
  ∀ (s : State) (x : Reg) (kk : Byte), exec (.addImm x kk) s =
    .next { s with v := s.v.set x.val (BitVec.ofNat 8 ((s.v[x.val].toNat + kk.toNat) % 256)), pc := s.pc + 2 }

/-- 43 R203, R204, R205: or, and, exclusive-or; no flag. -/
def Obligations.LogicWritesNoFlag : Prop :=
  (rowDecodes 0xF00F 0x8001 (fun w => .orReg (fieldX w) (fieldY w)) ∧ ∀ (s : State) (x y : Reg),
    exec (.orReg x y) s = .next { s with v := s.v.set x.val (s.v[x.val] ||| s.v[y.val]), pc := s.pc + 2 }) ∧
  (rowDecodes 0xF00F 0x8002 (fun w => .andReg (fieldX w) (fieldY w)) ∧ ∀ (s : State) (x y : Reg),
    exec (.andReg x y) s = .next { s with v := s.v.set x.val (s.v[x.val] &&& s.v[y.val]), pc := s.pc + 2 }) ∧
  (rowDecodes 0xF00F 0x8003 (fun w => .xorReg (fieldX w) (fieldY w)) ∧ ∀ (s : State) (x y : Reg),
    exec (.xorReg x y) s = .next { s with v := s.v.set x.val (s.v[x.val] ^^^ s.v[y.val]), pc := s.pc + 2 })

/-- 43 R206: F is 1 exactly when the unwidened sum exceeds 255, and V[x] holds the truncated low byte. -/
def Obligations.AddSetsCarry : Prop :=
  rowDecodes 0xF00F 0x8004 (fun w => .addReg (fieldX w) (fieldY w)) ∧
  ∀ (s : State) (x y : Reg), exec (.addReg x y) s = .next { s with
    f := if s.v[x.val].toNat + s.v[y.val].toNat > 255 then 1 else 0
    v := s.v.set x.val (BitVec.ofNat 8 ((s.v[x.val].toNat + s.v[y.val].toNat) % 256))
    pc := s.pc + 2 }

/-- 43 R207, R209: F is 1 exactly when the minuend is strictly greater; the difference wraps modulo 256. -/
def Obligations.SubtractFlagIsStrictlyGreater : Prop :=
  (rowDecodes 0xF00F 0x8005 (fun w => .subReg (fieldX w) (fieldY w)) ∧ ∀ (s : State) (x y : Reg),
    exec (.subReg x y) s = .next { s with
      f := if s.v[x.val].toNat > s.v[y.val].toNat then 1 else 0
      v := s.v.set x.val (BitVec.ofNat 8 ((s.v[x.val].toNat + 256 - s.v[y.val].toNat) % 256))
      pc := s.pc + 2 }) ∧
  (rowDecodes 0xF00F 0x8007 (fun w => .subnReg (fieldX w) (fieldY w)) ∧ ∀ (s : State) (x y : Reg),
    exec (.subnReg x y) s = .next { s with
      f := if s.v[y.val].toNat > s.v[x.val].toNat then 1 else 0
      v := s.v.set x.val (BitVec.ofNat 8 ((s.v[y.val].toNat + 256 - s.v[x.val].toNat) % 256))
      pc := s.pc + 2 })

/-- 43 R208, R210: the shifts by one, the bit shifted out in F; y takes no part. -/
def Obligations.ShiftsPutTheBitOutInFlag : Prop :=
  (rowDecodes 0xF00F 0x8006 (fun w => .shr (fieldX w) (fieldY w)) ∧ ∀ (s : State) (x y : Reg),
    exec (.shr x y) s = .next { s with
      f := BitVec.ofNat 8 (s.v[x.val].toNat % 2)
      v := s.v.set x.val (BitVec.ofNat 8 (s.v[x.val].toNat / 2))
      pc := s.pc + 2 }) ∧
  (rowDecodes 0xF00F 0x800E (fun w => .shl (fieldX w) (fieldY w)) ∧ ∀ (s : State) (x y : Reg),
    exec (.shl x y) s = .next { s with
      f := if s.v[x.val].toNat ≥ 128 then 1 else 0
      v := s.v.set x.val (BitVec.ofNat 8 (2 * s.v[x.val].toNat % 256))
      pc := s.pc + 2 })

/-- 43 R213 (the spec's own derivation): the same-register cases of the 8xyN group: V[x] and F after, with v the old V[x]. -/
def Obligations.SameRegisterCases : Prop :=
  ∀ (s : State) (x : Reg),
    exec (.ldReg x x) s = .next { s with pc := s.pc + 2 } ∧
    exec (.orReg x x) s = .next { s with pc := s.pc + 2 } ∧
    exec (.andReg x x) s = .next { s with pc := s.pc + 2 } ∧
    exec (.xorReg x x) s = .next { s with v := s.v.set x.val 0, pc := s.pc + 2 } ∧
    exec (.addReg x x) s = .next { s with
      v := s.v.set x.val (BitVec.ofNat 8 (2 * s.v[x.val].toNat % 256)), f := if s.v[x.val].toNat ≥ 0x80 then 1 else 0,
      pc := s.pc + 2 } ∧
    exec (.subReg x x) s = .next { s with v := s.v.set x.val 0, f := 0, pc := s.pc + 2 } ∧
    exec (.shr x x) s = .next { s with
      v := s.v.set x.val (s.v[x.val] >>> 1), f := s.v[x.val] &&& 1, pc := s.pc + 2 } ∧
    exec (.subnReg x x) s = .next { s with v := s.v.set x.val 0, f := 0, pc := s.pc + 2 } ∧
    exec (.shl x x) s = .next { s with
      v := s.v.set x.val (BitVec.ofNat 8 (2 * s.v[x.val].toNat % 256)), f := if s.v[x.val].toNat ≥ 0x80 then 1 else 0,
      pc := s.pc + 2 }

/-- 43 R211 (that the draw is an input of the cycle is the spec's own decision D22): Cxkk loads this cycle's draw, with
no mask by kk; a failed draw ends the run. -/
def Obligations.RandomByteIsTheDrawUnmasked : Prop :=
  rowDecodes 0xF000 0xC000 (fun w => .rnd (fieldX w) (fieldKK w)) ∧
  (∀ (s : State) (x : Reg) (kk b : Byte), s.random = .byte b →
    exec (.rnd x kk) s = .next { s with v := s.v.set x.val b, pc := s.pc + 2 }) ∧
  (∀ (s : State) (x : Reg) (kk : Byte), s.random = .failure →
    exec (.rnd x kk) s = .fault (.randomSourceFailure s.pc))

/-! ### The index register and memory (44) -/

/-- 44 R240, R241, R242: Annn loads 11 bits, Fx1E adds modulo 65536, Fx29 takes five times the register INDEX; no flag.
-/
def Obligations.IndexRegisterLoadsAndAdd : Prop :=
  (rowDecodes 0xF000 0xA000 (fun w => .ldI (fieldNNN w)) ∧ ∀ (s : State) (nnn : Word),
    exec (.ldI nnn) s = .next { s with i := BitVec.ofNat 16 (nnn.toNat % 0x800), pc := s.pc + 2 }) ∧
  (rowDecodes 0xF0FF 0xF01E (fun w => .addI (fieldX w)) ∧ ∀ (s : State) (x : Reg),
    exec (.addI x) s = .next { s with
      i := BitVec.ofNat 16 ((s.i.toNat + s.v[x.val].toNat) % 65536), pc := s.pc + 2 }) ∧
  (rowDecodes 0xF0FF 0xF029 (fun w => .ldF (fieldX w)) ∧ ∀ (s : State) (x : Reg),
    exec (.ldF x) s = .next { s with i := BitVec.ofNat 16 (5 * x.val), pc := s.pc + 2 })

/-- 44 R243 (the range and font errors and the digit order are the spec's own decisions D6, D8, D19): Fx33 stores
hundreds, tens and ones of V[x] at I, I+1, I+2 and changes nothing else; out of range or in the font, nothing is
written. -/
def Obligations.DecimalDigitsAreStoredAtI : Prop :=
  rowDecodes 0xF0FF 0xF033 (fun w => .ldB (fieldX w)) ∧
  (∀ (s : State) (x : Reg), 0x50 ≤ s.i.toNat → s.i.toNat + 2 ≤ 0xFFF →
    ∃ t, exec (.ldB x) s = .next t ∧ t = { s with mem := t.mem, pc := s.pc + 2 } ∧
      (Memory.read t.mem s.i.toNat).toNat = s.v[x.val].toNat / 100 ∧
      (Memory.read t.mem (s.i.toNat + 1)).toNat = s.v[x.val].toNat / 10 % 10 ∧
      (Memory.read t.mem (s.i.toNat + 2)).toNat = s.v[x.val].toNat % 10 ∧
      ∀ a : Nat, (a < s.i.toNat ∨ s.i.toNat + 3 ≤ a) → Memory.read t.mem a = Memory.read s.mem a) ∧
  (∀ (s : State) (x : Reg), 0xFFF < s.i.toNat + 2 →
    exec (.ldB x) s = .fault (.memoryOutOfRange (max s.i.toNat 0x1000) s.pc)) ∧
  (∀ (s : State) (x : Reg), s.i.toNat < 0x50 → exec (.ldB x) s = .fault (.fontWrite s.i s.pc))

/-- 44 R244 (the range and font errors are the spec's own decisions D6, D8): Fx55 stores V[0] to V[x−1], exclusive of x,
from I on and changes nothing else; with x = 0 it touches no memory whatever I holds. -/
def Obligations.StoreRegistersExcludesX : Prop :=
  rowDecodes 0xF0FF 0xF055 (fun w => .storeRegs (fieldX w)) ∧
  (∀ (s : State) (x : Reg), (x.val = 0 ∨ (0x50 ≤ s.i.toNat ∧ s.i.toNat + x.val ≤ 0x1000)) →
    ∃ t, exec (.storeRegs x) s = .next t ∧ t = { s with mem := t.mem, pc := s.pc + 2 } ∧
      (∀ k : Reg, k < x → Memory.read t.mem (s.i.toNat + k.val) = s.v[k.val]) ∧
      ∀ a : Nat, (a < s.i.toNat ∨ s.i.toNat + x.val ≤ a) → Memory.read t.mem a = Memory.read s.mem a) ∧
  (∀ (s : State) (x : Reg), 0 < x.val → 0x1000 < s.i.toNat + x.val →
    exec (.storeRegs x) s = .fault (.memoryOutOfRange (max s.i.toNat 0x1000) s.pc)) ∧
  (∀ (s : State) (x : Reg), 0 < x.val → s.i.toNat < 0x50 → exec (.storeRegs x) s = .fault (.fontWrite s.i s.pc))

/-- 44 R245 (the range error is the spec's own decision D6): Fx65 loads V[0] to V[x], inclusive of x, from I on, and
changes no other register and nothing else. -/
def Obligations.LoadRegistersIncludesX : Prop :=
  rowDecodes 0xF0FF 0xF065 (fun w => .loadRegs (fieldX w)) ∧
  (∀ (s : State) (x : Reg), s.i.toNat + x.val ≤ 0xFFF →
    ∃ t, exec (.loadRegs x) s = .next t ∧ t = { s with v := t.v, pc := s.pc + 2 } ∧
      (∀ k : Reg, k ≤ x → t.v[k.val] = Memory.read s.mem (s.i.toNat + k.val)) ∧
      (∀ k : Reg, x < k → t.v[k.val] = s.v[k.val])) ∧
  (∀ (s : State) (x : Reg), 0xFFF < s.i.toNat + x.val →
    exec (.loadRegs x) s = .fault (.memoryOutOfRange (max s.i.toNat 0x1000) s.pc))

/-- 20 R71 (the spec's own derivation), 70 R346: after an Fx55 or Fx33 whose step completes, host's turn and all, the very
next fetch reads at PC + 2 and PC + 3 the bytes just stored where the store reached them, and the old bytes where it did
not; and already the next state of Fx55's own effect holds the stored word at its PC. That Fx33's digits lie as hundreds,
tens, ones at I, I + 1, I + 2 is the spec's own decision D19 (assumption 6, DESIGN CHOICE). -/
def Obligations.NextFetchSeesTheStore : Prop :=
  (∀ (s t : State) (x : Reg), exec (.storeRegs x) s = .next t → 2 ≤ x.val → s.i.toNat = s.pc.toNat + 2 →
    t.wordAtPC = wordOfBytes s.v[0] s.v[1]) ∧
  (∀ (s t : State) (x : Reg), s.runsNext (.storeRegs x) → step s = .next t → s.pc.toNat + 3 ≤ 0xFFF →
    ∃ high low, t.fetch = .ok (high, low) ∧
      (∀ k : Reg, k < x → s.i.toNat + k.val = s.pc.toNat + 2 → high = s.v[k.val]) ∧
      (∀ k : Reg, k < x → s.i.toNat + k.val = s.pc.toNat + 3 → low = s.v[k.val]) ∧
      ((s.pc.toNat + 2 < s.i.toNat ∨ s.i.toNat + x.val ≤ s.pc.toNat + 2) → high = Memory.read s.mem (s.pc.toNat + 2)) ∧
      ((s.pc.toNat + 3 < s.i.toNat ∨ s.i.toNat + x.val ≤ s.pc.toNat + 3) → low = Memory.read s.mem (s.pc.toNat + 3))) ∧
  (∀ (s t : State) (x : Reg), s.runsNext (.ldB x) → step s = .next t → s.pc.toNat + 3 ≤ 0xFFF →
    ∃ high low, t.fetch = .ok (high, low) ∧
      (s.i.toNat = s.pc.toNat + 2 → high.toNat = s.v[x.val].toNat / 100 ∧ low.toNat = s.v[x.val].toNat / 10 % 10) ∧
      (s.i.toNat + 1 = s.pc.toNat + 2 → high.toNat = s.v[x.val].toNat / 10 % 10 ∧ low.toNat = s.v[x.val].toNat % 10) ∧
      (s.i.toNat + 2 = s.pc.toNat + 2 → high.toNat = s.v[x.val].toNat % 10) ∧
      (s.i.toNat = s.pc.toNat + 3 → low.toNat = s.v[x.val].toNat / 100) ∧
      ((s.pc.toNat + 2 < s.i.toNat ∨ s.i.toNat + 3 ≤ s.pc.toNat + 2) → high = Memory.read s.mem (s.pc.toNat + 2)) ∧
      ((s.pc.toNat + 3 < s.i.toNat ∨ s.i.toNat + 3 ≤ s.pc.toNat + 3) → low = Memory.read s.mem (s.pc.toNat + 3)))

/-! ### Timers and keys (45) -/

/-- 45 R270, R271, R272: Fx07 reads DT, Fx15 loads DT and Fx18 loads ST. In a cycle Fx07 sees DT already counted down (40
R123), and the value that Fx15 or Fx18 loads is not counted down in the cycle that loads it: the whole step leaves it. -/
def Obligations.TimerReadsAndLoads : Prop :=
  (rowDecodes 0xF0FF 0xF007 (fun w => .ldVxDT (fieldX w)) ∧ ∀ (s : State) (x : Reg),
    exec (.ldVxDT x) s = .next { s with v := s.v.set x.val s.dt, pc := s.pc + 2 }) ∧
  (rowDecodes 0xF0FF 0xF015 (fun w => .ldDTVx (fieldX w)) ∧ ∀ (s : State) (x : Reg),
    exec (.ldDTVx x) s = .next { s with dt := s.v[x.val], pc := s.pc + 2 }) ∧
  (rowDecodes 0xF0FF 0xF018 (fun w => .ldSTVx (fieldX w)) ∧ ∀ (s : State) (x : Reg),
    exec (.ldSTVx x) s = .next { s with st := s.v[x.val], pc := s.pc + 2 }) ∧
  (∀ s : State, s.tickTimers = { s with dt := BitVec.ofNat 8 (s.dt.toNat - 1), st := BitVec.ofNat 8 (s.st.toNat - 1) }) ∧
  (∀ (s t : State) (x : Reg), s.runsNext (.ldVxDT x) → step s = .next t → t.v[x.val].toNat = s.dt.toNat - 1) ∧
  (∀ (s t : State) (x : Reg), s.runsNext (.ldDTVx x) → step s = .next t → t.dt = s.v[x.val]) ∧
  (∀ (s t : State) (x : Reg), s.runsNext (.ldSTVx x) → step s = .next t → t.st = s.v[x.val])

/-- 45 R273, R274 (KeyIndexOutOfRange is the spec's own decision D7): the key is the one numbered by the VALUE of V[x];
the skips change PC alone. -/
def Obligations.KeySkipsTestTheNamedKey : Prop :=
  (rowDecodes 0xF0FF 0xE09E (fun w => .skp (fieldX w)) ∧
    (∀ (s : State) (x : Reg) (k : Fin 16), s.v[x.val].toNat = k.val →
      exec (.skp x) s = .next { s with pc := if s.keys[k.val] = true then s.pc + 4 else s.pc + 2 }) ∧
    (∀ (s : State) (x : Reg), 16 ≤ s.v[x.val].toNat → exec (.skp x) s = .fault (.keyIndexOutOfRange s.v[x.val] s.pc))) ∧
  (rowDecodes 0xF0FF 0xE0A1 (fun w => .sknp (fieldX w)) ∧
    (∀ (s : State) (x : Reg) (k : Fin 16), s.v[x.val].toNat = k.val →
      exec (.sknp x) s = .next { s with pc := if s.keys[k.val] = true then s.pc + 2 else s.pc + 4 }) ∧
    (∀ (s : State) (x : Reg), 16 ≤ s.v[x.val].toNat → exec (.sknp x) s = .fault (.keyIndexOutOfRange s.v[x.val] s.pc)))

/-- 45 R275: Fx0A loads the highest pressed key; with none pressed PC stays on the instruction and nothing changes. -/
def Obligations.KeyWaitTakesTheHighestKey : Prop :=
  rowDecodes 0xF0FF 0xF00A (fun w => .ldVxK (fieldX w)) ∧
  (∀ (s : State) (x : Reg) (k : Fin 16), s.keys[k.val] = true → (∀ j : Fin 16, k < j → s.keys[j.val] = false) →
    exec (.ldVxK x) s = .next { s with v := s.v.set x.val (BitVec.ofNat 8 k.val), pc := s.pc + 2 }) ∧
  (∀ (s : State) (x : Reg), (∀ j : Fin 16, s.keys[j.val] = false) → exec (.ldVxK x) s = .next s)

/-- 95 W7, 45 R275: while the host presses no key, the wait of Fx0A goes on for any number of cycles: PC, the registers
and memory stay, the timers count down, and the cycles are counted (40 R130, the spec's own decision D14; assumption 5).
That no key is pressed is asked of the next k scripted moves (assumption 8) alone: what the script holds after them is
free. -/
def Obligations.KeyWaitLastsWhileNoKeyIsPressed : Prop :=
  ∀ (k : Nat) (s : State) (x : Reg), s.runsNext (.ldVxK x) → (∀ j : Fin 16, s.keys[j.val] = false) →
    k ≤ s.hostMoves.length → (∀ h ∈ s.hostMoves.take k, ∀ j : Fin 16, h.keys[j.val] = false) →
    ∃ t, stepsTo k s t ∧ t.pc = s.pc ∧ t.v = s.v ∧ t.mem = s.mem ∧ t.dt.toNat = s.dt.toNat - k ∧
      t.st.toNat = s.st.toNat - k ∧ t.cycleCount = s.cycleCount + k ∧ t.runsNext (.ldVxK x)
end

