-- ==== Sys2Proof/Laws/Decode.lean ====
section
/-! SUPPORT. The decoder and the table: a word is its two bytes, the operand record of a word, the rows exclude one
another, and so a word that hits a row decodes by that row. -/

namespace Sys2Proof

theorem highByte_toNat (w : Word) : (highByte w).toNat = w.toNat / 256 := by
  have := w.isLt
  simp only [highByte, BitVec.toNat_setWidth, BitVec.toNat_ushiftRight, Nat.shiftRight_eq_div_pow]
  omega

theorem lowByte_toNat (w : Word) : (lowByte w).toNat = w.toNat % 256 := by
  simp [lowByte, BitVec.toNat_setWidth]

theorem wordOfBytes_toNat (high low : Byte) : (wordOfBytes high low).toNat = high.toNat * 256 + low.toNat := by
  have h : wordOfBytes high low = (high.setWidth 16 <<< 8) + low.setWidth 16 := by
    rw [BitVec.add_eq_or_of_and_eq_zero]
    · rfl
    · ext i hi
      simp only [BitVec.getElem_and, BitVec.getElem_shiftLeft, BitVec.getElem_setWidth, BitVec.getElem_zero]
      by_cases h8 : i < 8
      · simp [h8]
      · simp [BitVec.getLsbD_of_ge low i (by omega)]
  rw [h]
  have h1 := high.isLt
  have h2 := low.isLt
  simp only [BitVec.toNat_add, BitVec.toNat_shiftLeft, BitVec.toNat_setWidth, Nat.shiftLeft_eq]
  omega

/-- A word's two bytes put together give the word. -/
@[simp] theorem wordOfBytes_high_low (w : Word) : wordOfBytes (highByte w) (lowByte w) = w := by
  apply BitVec.eq_of_toNat_eq
  rw [wordOfBytes_toNat, highByte_toNat, lowByte_toNat]
  omega

@[simp] theorem highByte_wordOfBytes (high low : Byte) : highByte (wordOfBytes high low) = high := by
  apply BitVec.eq_of_toNat_eq
  have := low.isLt
  rw [highByte_toNat, wordOfBytes_toNat]
  omega

@[simp] theorem lowByte_wordOfBytes (high low : Byte) : lowByte (wordOfBytes high low) = low := by
  apply BitVec.eq_of_toNat_eq
  have := low.isLt
  rw [lowByte_toNat, wordOfBytes_toNat]
  omega

/-- The operand record's full word (30 R92). -/
@[simp] theorem decodeFields_full (high low : Byte) : (decodeFields high low).full = wordOfBytes high low := rfl

/-! ### The rows exclude one another (30 R96) -/

/-- Two rows whose patterns differ on a bit that both masks keep are hit by no common word. -/
theorem Row.not_both_hit {a b : Row} (h : a.mask &&& b.mask &&& (a.pattern ^^^ b.pattern) ≠ 0) (w : Word) :
    ¬ (a.hits w = true ∧ b.hits w = true) := by
  rintro ⟨ha, hb⟩
  apply h
  simp only [Row.hits, beq_iff_eq] at ha hb
  rw [← ha, ← hb]
  ext i hi
  have h0 : (0 : Word)[i] = false := BitVec.getElem_zero hi
  rw [h0]
  simp only [BitVec.getElem_and, BitVec.getElem_xor]
  cases w[i] <;> cases a.mask[i] <;> cases b.mask[i] <;> rfl

theorem rows_masks_exclude :
    rows.Pairwise (fun a b => a.mask &&& b.mask &&& (a.pattern ^^^ b.pattern) ≠ 0) := by decide

/-- No word hits two rows of the table (30 R96). -/
theorem rows_pairwise_exclusive : rows.Pairwise (fun a b => ∀ w, ¬ (a.hits w = true ∧ b.hits w = true)) :=
  rows_masks_exclude.imp fun h w => Row.not_both_hit h w

theorem find_row_of_hits {l : List Row} (hl : l.Pairwise (fun a b => ∀ w, ¬ (a.hits w = true ∧ b.hits w = true)))
    {r : Row} (hr : r ∈ l) {w : Word} (hw : r.hits w = true) : l.find? (fun r => r.hits w) = some r := by
  induction l with
  | nil => simp at hr
  | cons a l ih =>
    rw [List.pairwise_cons] at hl
    rcases List.mem_cons.mp hr with rfl | hr
    · simp [hw]
    · have : a.hits w = false := by
        cases h : a.hits w
        · rfl
        · exact absurd ⟨h, hw⟩ (hl.1 r hr w)
      simp [this, ih hl.2 hr]

/-- A word that hits a row decodes by that row, whichever stands first in the table (30 R96). -/
theorem decodeWord_of_row {r : Row} (hr : r ∈ rows) {w : Word} (hw : r.hits w = true) :
    decodeWord w = .ok (r.make (decodeFields (highByte w) (lowByte w))) := by
  simp [decodeWord, decode, find_row_of_hits rows_pairwise_exclusive hr hw]

/-- What the decoder can answer: a row's instruction, or the refusal of the whole word when no row is hit. -/
theorem decodeWord_cases (w : Word) :
    (∃ r ∈ rows, r.hits w = true ∧ decodeWord w = .ok (r.make (decodeFields (highByte w) (lowByte w)))) ∨
    ((∀ r ∈ rows, r.hits w = false) ∧ decodeWord w = .error (.unknownOpcode w)) := by
  cases h : rows.find? (fun r => r.hits w) with
  | some r =>
    exact .inl ⟨r, List.mem_of_find?_eq_some h, by simpa using List.find?_some h, by simp [decodeWord, decode, h]⟩
  | none =>
    refine .inr ⟨fun r hr => ?_, by simp [decodeWord, decode, h]⟩
    simpa using List.find?_eq_none.mp h r hr

end Sys2Proof
end

