-- ==== Sys2Proof/Laws/Memory.lean ====
section
/-! SUPPORT. The laws of memory: a read after a write, a write leaves every other place alone, runs of bytes, and every
operation keeps the canonical form. The read and write laws hold of every list of cells, canonical or not. -/

namespace Sys2Proof.Machine

/-! ### Reading after erasing, inserting and writing -/

theorem Memory.read_erase_same (m : Memory) (a : Nat) : Memory.read (Memory.erase m a) a = Memory.unlisted a := by
  induction m with
  | nil => rfl
  | cons c t ih =>
    obtain ⟨k, b⟩ := c
    by_cases h : k = a
    · simp [Memory.erase, h, ih]
    · simp [Memory.erase, h, Memory.read, ih]

theorem Memory.read_erase_other (m : Memory) {a a' : Nat} (h : a' ≠ a) :
    Memory.read (Memory.erase m a) a' = Memory.read m a' := by
  induction m with
  | nil => rfl
  | cons c t ih =>
    obtain ⟨k, b⟩ := c
    by_cases hk : k = a
    · subst hk
      simp [Memory.erase, Memory.read, ih, Ne.symm h]
    · simp [Memory.erase, hk, Memory.read, ih]

theorem Memory.read_insert_other (m : Memory) {a a' : Nat} (b : Byte) (h : a' ≠ a) :
    Memory.read (Memory.insert m a b) a' = Memory.read m a' := by
  induction m with
  | nil => simp [Memory.insert, Memory.read, Ne.symm h]
  | cons c t ih =>
    obtain ⟨k, d⟩ := c
    by_cases hk : a < k
    · simp [Memory.insert, hk, Memory.read, Ne.symm h]
    · simp [Memory.insert, hk, Memory.read, ih]

theorem Memory.read_insert_erase_same (m : Memory) (a : Nat) (b : Byte) :
    Memory.read (Memory.insert (Memory.erase m a) a b) a = b := by
  induction m with
  | nil => simp [Memory.erase, Memory.insert, Memory.read]
  | cons c t ih =>
    obtain ⟨k, d⟩ := c
    by_cases hk : k = a
    · simpa [Memory.erase, hk] using ih
    · by_cases hl : a < k
      · simp [Memory.erase, hk, Memory.insert, hl, Memory.read]
      · simp [Memory.erase, hk, Memory.insert, hl, Memory.read, ih]

/-- A read after a write to the same place gives the value written (20 R69). -/
@[simp] theorem Memory.read_write_same (m : Memory) (a : Nat) (b : Byte) :
    Memory.read (Memory.write m a b) a = b := by
  unfold Memory.write
  split
  · next h => rw [Memory.read_erase_same, h]
  · exact Memory.read_insert_erase_same m a b

/-- A write leaves every other place alone (20 R68). -/
theorem Memory.read_write_other (m : Memory) {a a' : Nat} (b : Byte) (h : a' ≠ a) :
    Memory.read (Memory.write m a b) a' = Memory.read m a' := by
  unfold Memory.write
  split
  · exact Memory.read_erase_other m h
  · rw [Memory.read_insert_other _ b h, Memory.read_erase_other m h]

/-! ### Runs of bytes -/

/-- A run of bytes leaves every address outside it alone. -/
theorem Memory.read_writeBytes_outside (bs : List Byte) : ∀ (m : Memory) (a a' : Nat),
    (a' < a ∨ a + bs.length ≤ a') → Memory.read (Memory.writeBytes m a bs) a' = Memory.read m a' := by
  induction bs with
  | nil => intro m a a' _; rfl
  | cons b bs ih =>
    intro m a a' h
    simp only [List.length_cons] at h
    rw [Memory.writeBytes, ih _ _ _ (by omega), Memory.read_write_other _ _ (by omega)]

/-- Byte k of a run reads back at its address. -/
theorem Memory.read_writeBytes_inside (bs : List Byte) : ∀ (m : Memory) (a k : Nat) (h : k < bs.length),
    Memory.read (Memory.writeBytes m a bs) (a + k) = bs[k] := by
  induction bs with
  | nil => intro m a k h; simp at h
  | cons b bs ih =>
    intro m a k h
    cases k with
    | zero =>
      rw [Memory.writeBytes, Memory.read_writeBytes_outside _ _ _ _ (by omega)]
      simp
    | succ k =>
      have := ih (Memory.write m a b) (a + 1) k (by simpa using h)
      rw [Memory.writeBytes, show a + (k + 1) = a + 1 + k by omega, this]
      simp

/-! ### The canonical form -/

theorem Memory.wfFrom_cons {lo a : Nat} {b : Byte} {t : Memory} :
    Memory.wfFrom lo ((a, b) :: t) = true ↔
      lo ≤ a ∧ a < 0x1000 ∧ b ≠ Memory.unlisted a ∧ Memory.wfFrom (a + 1) t = true := by
  simp [Memory.wfFrom, and_assoc]

theorem Memory.wfFrom_mono : ∀ {m : Memory} {lo lo' : Nat}, lo' ≤ lo →
    Memory.wfFrom lo m = true → Memory.wfFrom lo' m = true
  | [], _, _, _, _ => rfl
  | (a, b) :: t, lo, lo', hle, h => by
    rw [Memory.wfFrom_cons] at h ⊢
    exact ⟨by omega, h.2⟩

theorem Memory.erase_of_lt {m : Memory} {lo a : Nat} (h : Memory.wfFrom lo m = true) (hl : a < lo) :
    Memory.erase m a = m := by
  induction m generalizing lo with
  | nil => rfl
  | cons c t ih =>
    obtain ⟨k, b⟩ := c
    rw [Memory.wfFrom_cons] at h
    rw [Memory.erase, if_neg (by omega), ih h.2.2.2 (by omega)]

theorem Memory.wfFrom_erase {m : Memory} {lo : Nat} (a : Nat) (h : Memory.wfFrom lo m = true) :
    Memory.wfFrom lo (Memory.erase m a) = true := by
  induction m generalizing lo with
  | nil => rfl
  | cons c t ih =>
    obtain ⟨k, b⟩ := c
    rw [Memory.wfFrom_cons] at h
    by_cases hk : k = a
    · rw [Memory.erase, if_pos hk]
      exact Memory.wfFrom_mono (by omega) (ih h.2.2.2)
    · rw [Memory.erase, if_neg hk, Memory.wfFrom_cons]
      exact ⟨h.1, h.2.1, h.2.2.1, ih h.2.2.2⟩

theorem Memory.wfFrom_insert_erase {m : Memory} {lo a : Nat} {b : Byte} (h : Memory.wfFrom lo m = true)
    (hlo : lo ≤ a) (ha : a < 0x1000) (hb : b ≠ Memory.unlisted a) :
    Memory.wfFrom lo (Memory.insert (Memory.erase m a) a b) = true := by
  induction m generalizing lo with
  | nil => simp [Memory.erase, Memory.insert, Memory.wfFrom, hlo, ha, hb]
  | cons c t ih =>
    obtain ⟨k, d⟩ := c
    rw [Memory.wfFrom_cons] at h
    by_cases hk : k = a
    · subst hk
      rw [Memory.erase, if_pos rfl, Memory.erase_of_lt h.2.2.2 (by omega)]
      cases t with
      | nil => simp [Memory.insert, Memory.wfFrom, hlo, ha, hb]
      | cons c' t' =>
        obtain ⟨k', d'⟩ := c'
        have h' := Memory.wfFrom_cons.mp h.2.2.2
        rw [Memory.insert, if_pos (by omega), Memory.wfFrom_cons]
        exact ⟨hlo, ha, hb, h.2.2.2⟩
    · rw [Memory.erase, if_neg hk]
      by_cases hl : a < k
      · rw [Memory.insert, if_pos hl, Memory.wfFrom_cons, Memory.wfFrom_cons]
        exact ⟨hlo, ha, hb, by omega, h.2.1, h.2.2.1, Memory.wfFrom_erase a h.2.2.2⟩
      · rw [Memory.insert, if_neg hl, Memory.wfFrom_cons]
        exact ⟨h.1, h.2.1, h.2.2.1, ih h.2.2.2 (by omega)⟩

/-- A write of one byte to an existing address keeps the canonical form. -/
theorem Memory.wf_write {m : Memory} {a : Nat} (b : Byte) (h : Memory.wf m = true) (ha : a < 0x1000) :
    Memory.wf (Memory.write m a b) = true := by
  unfold Memory.write
  split
  · exact Memory.wfFrom_erase a h
  · next hb => exact Memory.wfFrom_insert_erase h (Nat.zero_le a) ha hb

/-- A run of bytes within the address space keeps the canonical form. -/
theorem Memory.wf_writeBytes (bs : List Byte) : ∀ {m : Memory} {a : Nat}, Memory.wf m = true →
    a + bs.length ≤ 0x1000 → Memory.wf (Memory.writeBytes m a bs) = true := by
  induction bs with
  | nil => intro m a h _; exact h
  | cons b bs ih =>
    intro m a h hl
    simp only [List.length_cons] at hl
    exact ih (Memory.wf_write b h (by omega)) (by omega)

theorem Memory.read_of_lt {m : Memory} {lo a : Nat} (h : Memory.wfFrom lo m = true) (hl : a < lo) :
    Memory.read m a = Memory.unlisted a := by
  rw [← Memory.erase_of_lt h hl, Memory.read_erase_same]

/-- Two canonical memories that read the same everywhere are the same list. -/
theorem Memory.ext_of_wf : ∀ {m m' : Memory} {lo lo' : Nat}, Memory.wfFrom lo m = true →
    Memory.wfFrom lo' m' = true → (∀ a, Memory.read m a = Memory.read m' a) → m = m'
  | [], [], _, _, _, _, _ => rfl
  | [], (k, b) :: t, _, _, _, h', he => by
    have hb := (Memory.wfFrom_cons.mp h').2.2.1
    have := he k
    simp only [Memory.read, if_true] at this
    exact absurd this.symm hb
  | (k, b) :: t, [], _, _, h, _, he => by
    have hb := (Memory.wfFrom_cons.mp h).2.2.1
    have := he k
    simp only [Memory.read, if_true] at this
    exact absurd this hb
  | (k, b) :: t, (k', b') :: t', lo, lo', h, h', he => by
    have w := Memory.wfFrom_cons.mp h
    have w' := Memory.wfFrom_cons.mp h'
    rcases Nat.lt_trichotomy k k' with hk | hk | hk
    · have := he k
      have hr := Memory.read_of_lt (m := (k', b') :: t') (lo := k') (a := k)
        (Memory.wfFrom_cons.mpr ⟨le_refl _, w'.2⟩) hk
      rw [hr] at this
      simp only [Memory.read, if_true] at this
      exact absurd this w.2.2.1
    · subst hk
      have hb : b = b' := by simpa [Memory.read] using he k
      subst hb
      have ht : t = t' := by
        refine Memory.ext_of_wf w.2.2.2 w'.2.2.2 fun a => ?_
        by_cases ha : k = a
        · subst ha
          rw [Memory.read_of_lt w.2.2.2 (by omega), Memory.read_of_lt w'.2.2.2 (by omega)]
        · simpa [Memory.read, ha] using he a
      rw [ht]
    · have := he k'
      have hr := Memory.read_of_lt (m := (k, b) :: t) (lo := k) (a := k')
        (Memory.wfFrom_cons.mpr ⟨le_refl _, w.2⟩) hk
      rw [hr] at this
      simp only [Memory.read, if_true] at this
      exact absurd this.symm w'.2.2.1

end Sys2Proof.Machine
end

