-- ==== Sys2Proof/Laws/State.lean ====
section
/-! SUPPORT. One lemma per field per update of State, so that no later proof unfolds a record update. -/

namespace Sys2Proof.Machine

variable (s : State)

/-! ### setV -/

@[simp] theorem State.setV_mem (x : Reg) (b : Byte) : (s.setV x b).mem = s.mem := rfl
@[simp] theorem State.setV_v (x : Reg) (b : Byte) : (s.setV x b).v = s.v.set x.val b := rfl
@[simp] theorem State.setV_f (x : Reg) (b : Byte) : (s.setV x b).f = s.f := rfl
@[simp] theorem State.setV_pc (x : Reg) (b : Byte) : (s.setV x b).pc = s.pc := rfl
@[simp] theorem State.setV_stack (x : Reg) (b : Byte) : (s.setV x b).stack = s.stack := rfl
@[simp] theorem State.setV_sp (x : Reg) (b : Byte) : (s.setV x b).sp = s.sp := rfl
@[simp] theorem State.setV_i (x : Reg) (b : Byte) : (s.setV x b).i = s.i := rfl
@[simp] theorem State.setV_dt (x : Reg) (b : Byte) : (s.setV x b).dt = s.dt := rfl
@[simp] theorem State.setV_st (x : Reg) (b : Byte) : (s.setV x b).st = s.st := rfl
@[simp] theorem State.setV_display (x : Reg) (b : Byte) : (s.setV x b).display = s.display := rfl
@[simp] theorem State.setV_rd (x : Reg) (b : Byte) : (s.setV x b).rd = s.rd := rfl
@[simp] theorem State.setV_keys (x : Reg) (b : Byte) : (s.setV x b).keys = s.keys := rfl
@[simp] theorem State.setV_random (x : Reg) (b : Byte) : (s.setV x b).random = s.random := rfl
@[simp] theorem State.setV_cycleCount (x : Reg) (b : Byte) : (s.setV x b).cycleCount = s.cycleCount := rfl
@[simp] theorem State.setV_hostMoves (x : Reg) (b : Byte) : (s.setV x b).hostMoves = s.hostMoves := rfl
@[simp] theorem State.setV_hostTurns (x : Reg) (b : Byte) : (s.setV x b).hostTurns = s.hostTurns := rfl

/-! ### setF -/

@[simp] theorem State.setF_mem (b : Byte) : (s.setF b).mem = s.mem := rfl
@[simp] theorem State.setF_v (b : Byte) : (s.setF b).v = s.v := rfl
@[simp] theorem State.setF_f (b : Byte) : (s.setF b).f = b := rfl
@[simp] theorem State.setF_pc (b : Byte) : (s.setF b).pc = s.pc := rfl
@[simp] theorem State.setF_stack (b : Byte) : (s.setF b).stack = s.stack := rfl
@[simp] theorem State.setF_sp (b : Byte) : (s.setF b).sp = s.sp := rfl
@[simp] theorem State.setF_i (b : Byte) : (s.setF b).i = s.i := rfl
@[simp] theorem State.setF_dt (b : Byte) : (s.setF b).dt = s.dt := rfl
@[simp] theorem State.setF_st (b : Byte) : (s.setF b).st = s.st := rfl
@[simp] theorem State.setF_display (b : Byte) : (s.setF b).display = s.display := rfl
@[simp] theorem State.setF_rd (b : Byte) : (s.setF b).rd = s.rd := rfl
@[simp] theorem State.setF_keys (b : Byte) : (s.setF b).keys = s.keys := rfl
@[simp] theorem State.setF_random (b : Byte) : (s.setF b).random = s.random := rfl
@[simp] theorem State.setF_cycleCount (b : Byte) : (s.setF b).cycleCount = s.cycleCount := rfl
@[simp] theorem State.setF_hostMoves (b : Byte) : (s.setF b).hostMoves = s.hostMoves := rfl
@[simp] theorem State.setF_hostTurns (b : Byte) : (s.setF b).hostTurns = s.hostTurns := rfl

/-! ### setI -/

@[simp] theorem State.setI_mem (w : Word) : (s.setI w).mem = s.mem := rfl
@[simp] theorem State.setI_v (w : Word) : (s.setI w).v = s.v := rfl
@[simp] theorem State.setI_f (w : Word) : (s.setI w).f = s.f := rfl
@[simp] theorem State.setI_pc (w : Word) : (s.setI w).pc = s.pc := rfl
@[simp] theorem State.setI_stack (w : Word) : (s.setI w).stack = s.stack := rfl
@[simp] theorem State.setI_sp (w : Word) : (s.setI w).sp = s.sp := rfl
@[simp] theorem State.setI_i (w : Word) : (s.setI w).i = w := rfl
@[simp] theorem State.setI_dt (w : Word) : (s.setI w).dt = s.dt := rfl
@[simp] theorem State.setI_st (w : Word) : (s.setI w).st = s.st := rfl
@[simp] theorem State.setI_display (w : Word) : (s.setI w).display = s.display := rfl
@[simp] theorem State.setI_rd (w : Word) : (s.setI w).rd = s.rd := rfl
@[simp] theorem State.setI_keys (w : Word) : (s.setI w).keys = s.keys := rfl
@[simp] theorem State.setI_random (w : Word) : (s.setI w).random = s.random := rfl
@[simp] theorem State.setI_cycleCount (w : Word) : (s.setI w).cycleCount = s.cycleCount := rfl
@[simp] theorem State.setI_hostMoves (w : Word) : (s.setI w).hostMoves = s.hostMoves := rfl
@[simp] theorem State.setI_hostTurns (w : Word) : (s.setI w).hostTurns = s.hostTurns := rfl

/-! ### setDT -/

@[simp] theorem State.setDT_mem (b : Byte) : (s.setDT b).mem = s.mem := rfl
@[simp] theorem State.setDT_v (b : Byte) : (s.setDT b).v = s.v := rfl
@[simp] theorem State.setDT_f (b : Byte) : (s.setDT b).f = s.f := rfl
@[simp] theorem State.setDT_pc (b : Byte) : (s.setDT b).pc = s.pc := rfl
@[simp] theorem State.setDT_stack (b : Byte) : (s.setDT b).stack = s.stack := rfl
@[simp] theorem State.setDT_sp (b : Byte) : (s.setDT b).sp = s.sp := rfl
@[simp] theorem State.setDT_i (b : Byte) : (s.setDT b).i = s.i := rfl
@[simp] theorem State.setDT_dt (b : Byte) : (s.setDT b).dt = b := rfl
@[simp] theorem State.setDT_st (b : Byte) : (s.setDT b).st = s.st := rfl
@[simp] theorem State.setDT_display (b : Byte) : (s.setDT b).display = s.display := rfl
@[simp] theorem State.setDT_rd (b : Byte) : (s.setDT b).rd = s.rd := rfl
@[simp] theorem State.setDT_keys (b : Byte) : (s.setDT b).keys = s.keys := rfl
@[simp] theorem State.setDT_random (b : Byte) : (s.setDT b).random = s.random := rfl
@[simp] theorem State.setDT_cycleCount (b : Byte) : (s.setDT b).cycleCount = s.cycleCount := rfl
@[simp] theorem State.setDT_hostMoves (b : Byte) : (s.setDT b).hostMoves = s.hostMoves := rfl
@[simp] theorem State.setDT_hostTurns (b : Byte) : (s.setDT b).hostTurns = s.hostTurns := rfl

/-! ### setST -/

@[simp] theorem State.setST_mem (b : Byte) : (s.setST b).mem = s.mem := rfl
@[simp] theorem State.setST_v (b : Byte) : (s.setST b).v = s.v := rfl
@[simp] theorem State.setST_f (b : Byte) : (s.setST b).f = s.f := rfl
@[simp] theorem State.setST_pc (b : Byte) : (s.setST b).pc = s.pc := rfl
@[simp] theorem State.setST_stack (b : Byte) : (s.setST b).stack = s.stack := rfl
@[simp] theorem State.setST_sp (b : Byte) : (s.setST b).sp = s.sp := rfl
@[simp] theorem State.setST_i (b : Byte) : (s.setST b).i = s.i := rfl
@[simp] theorem State.setST_dt (b : Byte) : (s.setST b).dt = s.dt := rfl
@[simp] theorem State.setST_st (b : Byte) : (s.setST b).st = b := rfl
@[simp] theorem State.setST_display (b : Byte) : (s.setST b).display = s.display := rfl
@[simp] theorem State.setST_rd (b : Byte) : (s.setST b).rd = s.rd := rfl
@[simp] theorem State.setST_keys (b : Byte) : (s.setST b).keys = s.keys := rfl
@[simp] theorem State.setST_random (b : Byte) : (s.setST b).random = s.random := rfl
@[simp] theorem State.setST_cycleCount (b : Byte) : (s.setST b).cycleCount = s.cycleCount := rfl
@[simp] theorem State.setST_hostMoves (b : Byte) : (s.setST b).hostMoves = s.hostMoves := rfl
@[simp] theorem State.setST_hostTurns (b : Byte) : (s.setST b).hostTurns = s.hostTurns := rfl

/-! ### setPC -/

@[simp] theorem State.setPC_mem (w : Word) : (s.setPC w).mem = s.mem := rfl
@[simp] theorem State.setPC_v (w : Word) : (s.setPC w).v = s.v := rfl
@[simp] theorem State.setPC_f (w : Word) : (s.setPC w).f = s.f := rfl
@[simp] theorem State.setPC_pc (w : Word) : (s.setPC w).pc = w := rfl
@[simp] theorem State.setPC_stack (w : Word) : (s.setPC w).stack = s.stack := rfl
@[simp] theorem State.setPC_sp (w : Word) : (s.setPC w).sp = s.sp := rfl
@[simp] theorem State.setPC_i (w : Word) : (s.setPC w).i = s.i := rfl
@[simp] theorem State.setPC_dt (w : Word) : (s.setPC w).dt = s.dt := rfl
@[simp] theorem State.setPC_st (w : Word) : (s.setPC w).st = s.st := rfl
@[simp] theorem State.setPC_display (w : Word) : (s.setPC w).display = s.display := rfl
@[simp] theorem State.setPC_rd (w : Word) : (s.setPC w).rd = s.rd := rfl
@[simp] theorem State.setPC_keys (w : Word) : (s.setPC w).keys = s.keys := rfl
@[simp] theorem State.setPC_random (w : Word) : (s.setPC w).random = s.random := rfl
@[simp] theorem State.setPC_cycleCount (w : Word) : (s.setPC w).cycleCount = s.cycleCount := rfl
@[simp] theorem State.setPC_hostMoves (w : Word) : (s.setPC w).hostMoves = s.hostMoves := rfl
@[simp] theorem State.setPC_hostTurns (w : Word) : (s.setPC w).hostTurns = s.hostTurns := rfl

/-! ### autoAdvance -/

@[simp] theorem State.autoAdvance_mem : s.autoAdvance.mem = s.mem := rfl
@[simp] theorem State.autoAdvance_v : s.autoAdvance.v = s.v := rfl
@[simp] theorem State.autoAdvance_f : s.autoAdvance.f = s.f := rfl
@[simp] theorem State.autoAdvance_pc : s.autoAdvance.pc = s.pc + 2 := rfl
@[simp] theorem State.autoAdvance_stack : s.autoAdvance.stack = s.stack := rfl
@[simp] theorem State.autoAdvance_sp : s.autoAdvance.sp = s.sp := rfl
@[simp] theorem State.autoAdvance_i : s.autoAdvance.i = s.i := rfl
@[simp] theorem State.autoAdvance_dt : s.autoAdvance.dt = s.dt := rfl
@[simp] theorem State.autoAdvance_st : s.autoAdvance.st = s.st := rfl
@[simp] theorem State.autoAdvance_display : s.autoAdvance.display = s.display := rfl
@[simp] theorem State.autoAdvance_rd : s.autoAdvance.rd = s.rd := rfl
@[simp] theorem State.autoAdvance_keys : s.autoAdvance.keys = s.keys := rfl
@[simp] theorem State.autoAdvance_random : s.autoAdvance.random = s.random := rfl
@[simp] theorem State.autoAdvance_cycleCount : s.autoAdvance.cycleCount = s.cycleCount := rfl
@[simp] theorem State.autoAdvance_hostMoves : s.autoAdvance.hostMoves = s.hostMoves := rfl
@[simp] theorem State.autoAdvance_hostTurns : s.autoAdvance.hostTurns = s.hostTurns := rfl

/-! ### skipIf -/

@[simp] theorem State.skipIf_mem (c : Bool) : (s.skipIf c).mem = s.mem := rfl
@[simp] theorem State.skipIf_v (c : Bool) : (s.skipIf c).v = s.v := rfl
@[simp] theorem State.skipIf_f (c : Bool) : (s.skipIf c).f = s.f := rfl
@[simp] theorem State.skipIf_pc (c : Bool) : (s.skipIf c).pc = if c then s.pc + 2 else s.pc := rfl
@[simp] theorem State.skipIf_stack (c : Bool) : (s.skipIf c).stack = s.stack := rfl
@[simp] theorem State.skipIf_sp (c : Bool) : (s.skipIf c).sp = s.sp := rfl
@[simp] theorem State.skipIf_i (c : Bool) : (s.skipIf c).i = s.i := rfl
@[simp] theorem State.skipIf_dt (c : Bool) : (s.skipIf c).dt = s.dt := rfl
@[simp] theorem State.skipIf_st (c : Bool) : (s.skipIf c).st = s.st := rfl
@[simp] theorem State.skipIf_display (c : Bool) : (s.skipIf c).display = s.display := rfl
@[simp] theorem State.skipIf_rd (c : Bool) : (s.skipIf c).rd = s.rd := rfl
@[simp] theorem State.skipIf_keys (c : Bool) : (s.skipIf c).keys = s.keys := rfl
@[simp] theorem State.skipIf_random (c : Bool) : (s.skipIf c).random = s.random := rfl
@[simp] theorem State.skipIf_cycleCount (c : Bool) : (s.skipIf c).cycleCount = s.cycleCount := rfl
@[simp] theorem State.skipIf_hostMoves (c : Bool) : (s.skipIf c).hostMoves = s.hostMoves := rfl
@[simp] theorem State.skipIf_hostTurns (c : Bool) : (s.skipIf c).hostTurns = s.hostTurns := rfl

/-! ### push -/

@[simp] theorem State.push_mem : s.push.mem = s.mem := rfl
@[simp] theorem State.push_v : s.push.v = s.v := rfl
@[simp] theorem State.push_f : s.push.f = s.f := rfl
@[simp] theorem State.push_pc : s.push.pc = s.pc := rfl
@[simp] theorem State.push_stack : s.push.stack = s.stack.set (s.sp + 1).val s.pc := rfl
@[simp] theorem State.push_sp : s.push.sp = s.sp + 1 := rfl
@[simp] theorem State.push_i : s.push.i = s.i := rfl
@[simp] theorem State.push_dt : s.push.dt = s.dt := rfl
@[simp] theorem State.push_st : s.push.st = s.st := rfl
@[simp] theorem State.push_display : s.push.display = s.display := rfl
@[simp] theorem State.push_rd : s.push.rd = s.rd := rfl
@[simp] theorem State.push_keys : s.push.keys = s.keys := rfl
@[simp] theorem State.push_random : s.push.random = s.random := rfl
@[simp] theorem State.push_cycleCount : s.push.cycleCount = s.cycleCount := rfl
@[simp] theorem State.push_hostMoves : s.push.hostMoves = s.hostMoves := rfl
@[simp] theorem State.push_hostTurns : s.push.hostTurns = s.hostTurns := rfl

/-! ### pop -/

@[simp] theorem State.pop_mem : s.pop.mem = s.mem := rfl
@[simp] theorem State.pop_v : s.pop.v = s.v := rfl
@[simp] theorem State.pop_f : s.pop.f = s.f := rfl
@[simp] theorem State.pop_pc : s.pop.pc = s.stack[s.sp.val] := rfl
@[simp] theorem State.pop_stack : s.pop.stack = s.stack := rfl
@[simp] theorem State.pop_sp : s.pop.sp = s.sp - 1 := rfl
@[simp] theorem State.pop_i : s.pop.i = s.i := rfl
@[simp] theorem State.pop_dt : s.pop.dt = s.dt := rfl
@[simp] theorem State.pop_st : s.pop.st = s.st := rfl
@[simp] theorem State.pop_display : s.pop.display = s.display := rfl
@[simp] theorem State.pop_rd : s.pop.rd = s.rd := rfl
@[simp] theorem State.pop_keys : s.pop.keys = s.keys := rfl
@[simp] theorem State.pop_random : s.pop.random = s.random := rfl
@[simp] theorem State.pop_cycleCount : s.pop.cycleCount = s.cycleCount := rfl
@[simp] theorem State.pop_hostMoves : s.pop.hostMoves = s.hostMoves := rfl
@[simp] theorem State.pop_hostTurns : s.pop.hostTurns = s.hostTurns := rfl

/-! ### storeAtI -/

@[simp] theorem State.storeAtI_mem (bs : List Byte) : (s.storeAtI bs).mem = Memory.writeBytes s.mem s.i.toNat bs := rfl
@[simp] theorem State.storeAtI_v (bs : List Byte) : (s.storeAtI bs).v = s.v := rfl
@[simp] theorem State.storeAtI_f (bs : List Byte) : (s.storeAtI bs).f = s.f := rfl
@[simp] theorem State.storeAtI_pc (bs : List Byte) : (s.storeAtI bs).pc = s.pc := rfl
@[simp] theorem State.storeAtI_stack (bs : List Byte) : (s.storeAtI bs).stack = s.stack := rfl
@[simp] theorem State.storeAtI_sp (bs : List Byte) : (s.storeAtI bs).sp = s.sp := rfl
@[simp] theorem State.storeAtI_i (bs : List Byte) : (s.storeAtI bs).i = s.i := rfl
@[simp] theorem State.storeAtI_dt (bs : List Byte) : (s.storeAtI bs).dt = s.dt := rfl
@[simp] theorem State.storeAtI_st (bs : List Byte) : (s.storeAtI bs).st = s.st := rfl
@[simp] theorem State.storeAtI_display (bs : List Byte) : (s.storeAtI bs).display = s.display := rfl
@[simp] theorem State.storeAtI_rd (bs : List Byte) : (s.storeAtI bs).rd = s.rd := rfl
@[simp] theorem State.storeAtI_keys (bs : List Byte) : (s.storeAtI bs).keys = s.keys := rfl
@[simp] theorem State.storeAtI_random (bs : List Byte) : (s.storeAtI bs).random = s.random := rfl
@[simp] theorem State.storeAtI_cycleCount (bs : List Byte) : (s.storeAtI bs).cycleCount = s.cycleCount := rfl
@[simp] theorem State.storeAtI_hostMoves (bs : List Byte) : (s.storeAtI bs).hostMoves = s.hostMoves := rfl
@[simp] theorem State.storeAtI_hostTurns (bs : List Byte) : (s.storeAtI bs).hostTurns = s.hostTurns := rfl

/-! ### loadFromI -/

@[simp] theorem State.loadFromI_mem (x : Reg) : (s.loadFromI x).mem = s.mem := rfl
@[simp] theorem State.loadFromI_v (x : Reg) :
    (s.loadFromI x).v = Vector.ofFn fun k : Fin 16 => if k ≤ x then Memory.read s.mem (s.i.toNat + k.val) else s.v[k.val] := rfl
@[simp] theorem State.loadFromI_f (x : Reg) : (s.loadFromI x).f = s.f := rfl
@[simp] theorem State.loadFromI_pc (x : Reg) : (s.loadFromI x).pc = s.pc := rfl
@[simp] theorem State.loadFromI_stack (x : Reg) : (s.loadFromI x).stack = s.stack := rfl
@[simp] theorem State.loadFromI_sp (x : Reg) : (s.loadFromI x).sp = s.sp := rfl
@[simp] theorem State.loadFromI_i (x : Reg) : (s.loadFromI x).i = s.i := rfl
@[simp] theorem State.loadFromI_dt (x : Reg) : (s.loadFromI x).dt = s.dt := rfl
@[simp] theorem State.loadFromI_st (x : Reg) : (s.loadFromI x).st = s.st := rfl
@[simp] theorem State.loadFromI_display (x : Reg) : (s.loadFromI x).display = s.display := rfl
@[simp] theorem State.loadFromI_rd (x : Reg) : (s.loadFromI x).rd = s.rd := rfl
@[simp] theorem State.loadFromI_keys (x : Reg) : (s.loadFromI x).keys = s.keys := rfl
@[simp] theorem State.loadFromI_random (x : Reg) : (s.loadFromI x).random = s.random := rfl
@[simp] theorem State.loadFromI_cycleCount (x : Reg) : (s.loadFromI x).cycleCount = s.cycleCount := rfl
@[simp] theorem State.loadFromI_hostMoves (x : Reg) : (s.loadFromI x).hostMoves = s.hostMoves := rfl
@[simp] theorem State.loadFromI_hostTurns (x : Reg) : (s.loadFromI x).hostTurns = s.hostTurns := rfl

/-! ### requestRedraw -/

@[simp] theorem State.requestRedraw_mem : s.requestRedraw.mem = s.mem := rfl
@[simp] theorem State.requestRedraw_v : s.requestRedraw.v = s.v := rfl
@[simp] theorem State.requestRedraw_f : s.requestRedraw.f = s.f := rfl
@[simp] theorem State.requestRedraw_pc : s.requestRedraw.pc = s.pc := rfl
@[simp] theorem State.requestRedraw_stack : s.requestRedraw.stack = s.stack := rfl
@[simp] theorem State.requestRedraw_sp : s.requestRedraw.sp = s.sp := rfl
@[simp] theorem State.requestRedraw_i : s.requestRedraw.i = s.i := rfl
@[simp] theorem State.requestRedraw_dt : s.requestRedraw.dt = s.dt := rfl
@[simp] theorem State.requestRedraw_st : s.requestRedraw.st = s.st := rfl
@[simp] theorem State.requestRedraw_display : s.requestRedraw.display = s.display := rfl
@[simp] theorem State.requestRedraw_rd : s.requestRedraw.rd = true := rfl
@[simp] theorem State.requestRedraw_keys : s.requestRedraw.keys = s.keys := rfl
@[simp] theorem State.requestRedraw_random : s.requestRedraw.random = s.random := rfl
@[simp] theorem State.requestRedraw_cycleCount : s.requestRedraw.cycleCount = s.cycleCount := rfl
@[simp] theorem State.requestRedraw_hostMoves : s.requestRedraw.hostMoves = s.hostMoves := rfl
@[simp] theorem State.requestRedraw_hostTurns : s.requestRedraw.hostTurns = s.hostTurns := rfl

/-! ### clearDisplay -/

@[simp] theorem State.clearDisplay_mem : s.clearDisplay.mem = s.mem := rfl
@[simp] theorem State.clearDisplay_v : s.clearDisplay.v = s.v := rfl
@[simp] theorem State.clearDisplay_f : s.clearDisplay.f = s.f := rfl
@[simp] theorem State.clearDisplay_pc : s.clearDisplay.pc = s.pc := rfl
@[simp] theorem State.clearDisplay_stack : s.clearDisplay.stack = s.stack := rfl
@[simp] theorem State.clearDisplay_sp : s.clearDisplay.sp = s.sp := rfl
@[simp] theorem State.clearDisplay_i : s.clearDisplay.i = s.i := rfl
@[simp] theorem State.clearDisplay_dt : s.clearDisplay.dt = s.dt := rfl
@[simp] theorem State.clearDisplay_st : s.clearDisplay.st = s.st := rfl
@[simp] theorem State.clearDisplay_display : s.clearDisplay.display = Vector.replicate 2048 false := rfl
@[simp] theorem State.clearDisplay_rd : s.clearDisplay.rd = s.rd := rfl
@[simp] theorem State.clearDisplay_keys : s.clearDisplay.keys = s.keys := rfl
@[simp] theorem State.clearDisplay_random : s.clearDisplay.random = s.random := rfl
@[simp] theorem State.clearDisplay_cycleCount : s.clearDisplay.cycleCount = s.cycleCount := rfl
@[simp] theorem State.clearDisplay_hostMoves : s.clearDisplay.hostMoves = s.hostMoves := rfl
@[simp] theorem State.clearDisplay_hostTurns : s.clearDisplay.hostTurns = s.hostTurns := rfl

/-! ### drawSprite -/

@[simp] theorem State.drawSprite_mem (c0 r0 n : Nat) : (s.drawSprite c0 r0 n).mem = s.mem := rfl
@[simp] theorem State.drawSprite_v (c0 r0 n : Nat) : (s.drawSprite c0 r0 n).v = s.v := rfl
@[simp] theorem State.drawSprite_f (c0 r0 n : Nat) :
    (s.drawSprite c0 r0 n).f = (Canvas.drawRows ⟨s.display, s.f⟩ (s.spriteRows n) c0 r0).f := rfl
@[simp] theorem State.drawSprite_pc (c0 r0 n : Nat) : (s.drawSprite c0 r0 n).pc = s.pc := rfl
@[simp] theorem State.drawSprite_stack (c0 r0 n : Nat) : (s.drawSprite c0 r0 n).stack = s.stack := rfl
@[simp] theorem State.drawSprite_sp (c0 r0 n : Nat) : (s.drawSprite c0 r0 n).sp = s.sp := rfl
@[simp] theorem State.drawSprite_i (c0 r0 n : Nat) : (s.drawSprite c0 r0 n).i = s.i := rfl
@[simp] theorem State.drawSprite_dt (c0 r0 n : Nat) : (s.drawSprite c0 r0 n).dt = s.dt := rfl
@[simp] theorem State.drawSprite_st (c0 r0 n : Nat) : (s.drawSprite c0 r0 n).st = s.st := rfl
@[simp] theorem State.drawSprite_display (c0 r0 n : Nat) :
    (s.drawSprite c0 r0 n).display = (Canvas.drawRows ⟨s.display, s.f⟩ (s.spriteRows n) c0 r0).display := rfl
@[simp] theorem State.drawSprite_rd (c0 r0 n : Nat) : (s.drawSprite c0 r0 n).rd = s.rd := rfl
@[simp] theorem State.drawSprite_keys (c0 r0 n : Nat) : (s.drawSprite c0 r0 n).keys = s.keys := rfl
@[simp] theorem State.drawSprite_random (c0 r0 n : Nat) : (s.drawSprite c0 r0 n).random = s.random := rfl
@[simp] theorem State.drawSprite_cycleCount (c0 r0 n : Nat) : (s.drawSprite c0 r0 n).cycleCount = s.cycleCount := rfl
@[simp] theorem State.drawSprite_hostMoves (c0 r0 n : Nat) : (s.drawSprite c0 r0 n).hostMoves = s.hostMoves := rfl
@[simp] theorem State.drawSprite_hostTurns (c0 r0 n : Nat) : (s.drawSprite c0 r0 n).hostTurns = s.hostTurns := rfl

/-! ### tickTimers -/

@[simp] theorem State.tickTimers_mem : s.tickTimers.mem = s.mem := rfl
@[simp] theorem State.tickTimers_v : s.tickTimers.v = s.v := rfl
@[simp] theorem State.tickTimers_f : s.tickTimers.f = s.f := rfl
@[simp] theorem State.tickTimers_pc : s.tickTimers.pc = s.pc := rfl
@[simp] theorem State.tickTimers_stack : s.tickTimers.stack = s.stack := rfl
@[simp] theorem State.tickTimers_sp : s.tickTimers.sp = s.sp := rfl
@[simp] theorem State.tickTimers_i : s.tickTimers.i = s.i := rfl
@[simp] theorem State.tickTimers_dt : s.tickTimers.dt = countDown s.dt := rfl
@[simp] theorem State.tickTimers_st : s.tickTimers.st = countDown s.st := rfl
@[simp] theorem State.tickTimers_display : s.tickTimers.display = s.display := rfl
@[simp] theorem State.tickTimers_rd : s.tickTimers.rd = s.rd := rfl
@[simp] theorem State.tickTimers_keys : s.tickTimers.keys = s.keys := rfl
@[simp] theorem State.tickTimers_random : s.tickTimers.random = s.random := rfl
@[simp] theorem State.tickTimers_cycleCount : s.tickTimers.cycleCount = s.cycleCount := rfl
@[simp] theorem State.tickTimers_hostMoves : s.tickTimers.hostMoves = s.hostMoves := rfl
@[simp] theorem State.tickTimers_hostTurns : s.tickTimers.hostTurns = s.hostTurns := rfl

/-! ### countCycle -/

@[simp] theorem State.countCycle_mem : s.countCycle.mem = s.mem := rfl
@[simp] theorem State.countCycle_v : s.countCycle.v = s.v := rfl
@[simp] theorem State.countCycle_f : s.countCycle.f = s.f := rfl
@[simp] theorem State.countCycle_pc : s.countCycle.pc = s.pc := rfl
@[simp] theorem State.countCycle_stack : s.countCycle.stack = s.stack := rfl
@[simp] theorem State.countCycle_sp : s.countCycle.sp = s.sp := rfl
@[simp] theorem State.countCycle_i : s.countCycle.i = s.i := rfl
@[simp] theorem State.countCycle_dt : s.countCycle.dt = s.dt := rfl
@[simp] theorem State.countCycle_st : s.countCycle.st = s.st := rfl
@[simp] theorem State.countCycle_display : s.countCycle.display = s.display := rfl
@[simp] theorem State.countCycle_rd : s.countCycle.rd = s.rd := rfl
@[simp] theorem State.countCycle_keys : s.countCycle.keys = s.keys := rfl
@[simp] theorem State.countCycle_random : s.countCycle.random = s.random := rfl
@[simp] theorem State.countCycle_cycleCount : s.countCycle.cycleCount = s.cycleCount + 1 := rfl
@[simp] theorem State.countCycle_hostMoves : s.countCycle.hostMoves = s.hostMoves := rfl
@[simp] theorem State.countCycle_hostTurns : s.countCycle.hostTurns = s.hostTurns := rfl

/-! ### applyHostMove -/

@[simp] theorem State.applyHostMove_mem (h : HostMove) : (s.applyHostMove h).mem = s.mem := rfl
@[simp] theorem State.applyHostMove_v (h : HostMove) : (s.applyHostMove h).v = s.v := rfl
@[simp] theorem State.applyHostMove_f (h : HostMove) : (s.applyHostMove h).f = s.f := rfl
@[simp] theorem State.applyHostMove_pc (h : HostMove) : (s.applyHostMove h).pc = s.pc := rfl
@[simp] theorem State.applyHostMove_stack (h : HostMove) : (s.applyHostMove h).stack = s.stack := rfl
@[simp] theorem State.applyHostMove_sp (h : HostMove) : (s.applyHostMove h).sp = s.sp := rfl
@[simp] theorem State.applyHostMove_i (h : HostMove) : (s.applyHostMove h).i = s.i := rfl
@[simp] theorem State.applyHostMove_dt (h : HostMove) : (s.applyHostMove h).dt = s.dt := rfl
@[simp] theorem State.applyHostMove_st (h : HostMove) : (s.applyHostMove h).st = s.st := rfl
@[simp] theorem State.applyHostMove_display (h : HostMove) : (s.applyHostMove h).display = s.display := rfl
@[simp] theorem State.applyHostMove_rd (h : HostMove) : (s.applyHostMove h).rd = (s.rd && !h.clearsRedraw) := rfl
@[simp] theorem State.applyHostMove_keys (h : HostMove) : (s.applyHostMove h).keys = h.keys := rfl
@[simp] theorem State.applyHostMove_random (h : HostMove) : (s.applyHostMove h).random = h.random := rfl
@[simp] theorem State.applyHostMove_cycleCount (h : HostMove) : (s.applyHostMove h).cycleCount = s.cycleCount := rfl
@[simp] theorem State.applyHostMove_hostMoves (h : HostMove) : (s.applyHostMove h).hostMoves = s.hostMoves := rfl
@[simp] theorem State.applyHostMove_hostTurns (h : HostMove) : (s.applyHostMove h).hostTurns = s.hostTurns := rfl

/-! ### hostTurn: the fields the host does not write (60 R322) -/

@[simp] theorem State.hostTurn_mem : s.hostTurn.mem = s.mem := by
  unfold State.hostTurn; split <;> rfl
@[simp] theorem State.hostTurn_v : s.hostTurn.v = s.v := by
  unfold State.hostTurn; split <;> rfl
@[simp] theorem State.hostTurn_f : s.hostTurn.f = s.f := by
  unfold State.hostTurn; split <;> rfl
@[simp] theorem State.hostTurn_pc : s.hostTurn.pc = s.pc := by
  unfold State.hostTurn; split <;> rfl
@[simp] theorem State.hostTurn_stack : s.hostTurn.stack = s.stack := by
  unfold State.hostTurn; split <;> rfl
@[simp] theorem State.hostTurn_sp : s.hostTurn.sp = s.sp := by
  unfold State.hostTurn; split <;> rfl
@[simp] theorem State.hostTurn_i : s.hostTurn.i = s.i := by
  unfold State.hostTurn; split <;> rfl
@[simp] theorem State.hostTurn_dt : s.hostTurn.dt = s.dt := by
  unfold State.hostTurn; split <;> rfl
@[simp] theorem State.hostTurn_st : s.hostTurn.st = s.st := by
  unfold State.hostTurn; split <;> rfl
@[simp] theorem State.hostTurn_display : s.hostTurn.display = s.display := by
  unfold State.hostTurn; split <;> rfl
@[simp] theorem State.hostTurn_cycleCount : s.hostTurn.cycleCount = s.cycleCount := by
  unfold State.hostTurn; split <;> rfl

end Sys2Proof.Machine
end

