-- ==== Sys2Proof/Laws/Words.lean ====
section
/-! SUPPORT. The operand record of a word is its fields as numbers (30_encoding.md R91, R92); a mask of the table keeps
which nibbles; and the words the encoder builds carry their row's fixed bits and their operands. -/

namespace Sys2Proof

/-! ### A word's operand record -/

theorem and_mask_toNat (w : Word) (k : Nat) (hk : k ≤ 16) : (w &&& BitVec.ofNat 16 (2 ^ k - 1)).toNat = w.toNat % 2 ^ k := by
  have h2 : 2 ^ k - 1 < 2 ^ 16 := by
    have := Nat.pow_le_pow_right (n := 2) (by omega) hk
    have := Nat.two_pow_pos k
    omega
  rw [BitVec.toNat_and, BitVec.toNat_ofNat, Nat.mod_eq_of_lt h2, Nat.and_two_pow_sub_one_eq_mod]

theorem address11_toNat (nnn : Word) : (address11 nnn).toNat = nnn.toNat % 0x800 := and_mask_toNat nnn 11 (by omega)

theorem address11_eq (nnn : Word) : address11 nnn = BitVec.ofNat 16 (nnn.toNat % 0x800) := by
  apply BitVec.eq_of_toNat_eq
  rw [address11_toNat, BitVec.toNat_ofNat]
  omega

theorem and_0FFF_eq (w : Word) : w &&& 0x0FFF = fieldNNN w := by
  apply BitVec.eq_of_toNat_eq
  have h : (w &&& 0x0FFF).toNat = w.toNat % 2 ^ 12 := and_mask_toNat w 12 (by omega)
  rw [h, fieldNNN, BitVec.toNat_ofNat]
  omega

theorem byte_and_0F_toNat (b : Byte) : (b &&& 0x0F).toNat = b.toNat % 16 := by
  rw [BitVec.toNat_and]
  exact Nat.and_two_pow_sub_one_eq_mod b.toNat 4

/-- The decoder's record of a word, by the word's fields (30 R91, R92). -/
theorem decodeFields_of_word (w : Word) : decodeFields (highByte w) (lowByte w) =
    { full := w, address := address11 w, nnn := fieldNNN w, nibble := fieldN w, x := fieldX w, y := fieldY w,
      immediate := fieldKK w } := by
  have hw := w.isLt
  have hn : (lowByte w &&& 0x0F).toNat = fieldN w := by
    rw [byte_and_0F_toNat, lowByte_toNat, fieldN]
    omega
  have hx : Fin.ofNat 16 (highByte w &&& 0x0F).toNat = fieldX w := by
    rw [byte_and_0F_toNat, highByte_toNat, fieldX]
    apply Fin.ext
    simp
  have hy : Fin.ofNat 16 (lowByte w >>> 4).toNat = fieldY w := by
    rw [BitVec.toNat_ushiftRight, lowByte_toNat, fieldY, Nat.shiftRight_eq_div_pow]
    apply Fin.ext
    simp only [Fin.ofNat]
    omega
  have hk : lowByte w = fieldKK w := by
    apply BitVec.eq_of_toNat_eq
    rw [lowByte_toNat, fieldKK, BitVec.toNat_ofNat]
  simp only [decodeFields, wordOfBytes_high_low, and_0FFF_eq, hn, hx, hy]
  rw [hk]

/-- A row of the table decodes every word it hits, its instruction taken from the word's fields. -/
theorem rowDecodes_of_row {r : Row} (hr : r ∈ rows) {make : Word → Instr}
    (hm : ∀ w, r.make (decodeFields (highByte w) (lowByte w)) = make w) : rowDecodes r.mask r.pattern make := by
  intro w hw
  rw [decodeWord_of_row hr (by simpa [Row.hits] using hw), hm]

/-! ### The masks of the table, by nibbles -/

theorem F000_getElem : ∀ i : Fin 16, (0xF000#16)[i.val] = decide (12 ≤ i.val) := by decide

theorem and_F000_toNat (w : Word) : (w &&& 0xF000).toNat = w.toNat / 0x1000 * 0x1000 := by
  have h : w &&& 0xF000#16 = (w >>> 12) <<< 12 := by
    ext i hi
    rw [BitVec.getElem_and, F000_getElem ⟨i, hi⟩, BitVec.getElem_shiftLeft]
    by_cases h12 : i < 12
    · simp [h12]
    · have hle : 12 ≤ i := by omega
      simp [h12, hle, show 12 + (i - 12) = i by omega, BitVec.getLsbD_eq_getElem hi]
  have := w.isLt
  change (w &&& 0xF000#16).toNat = _
  rw [h, BitVec.toNat_shiftLeft, BitVec.toNat_ushiftRight, Nat.shiftRight_eq_div_pow, Nat.shiftLeft_eq]
  omega

/-- A mask of the top nibble keeps the top nibble. -/
theorem and_F000_eq_iff (w p : Word) (hp : p.toNat % 0x1000 = 0) :
    w &&& 0xF000 = p ↔ w.toNat / 0x1000 = p.toNat / 0x1000 := by
  rw [← BitVec.toNat_inj, and_F000_toNat]
  omega

theorem and_union_eq_iff (w a b p : Word) (hp : p &&& (a ||| b) = p) :
    w &&& (a ||| b) = p ↔ w &&& a = p &&& a ∧ w &&& b = p &&& b := by
  constructor
  · rintro rfl
    constructor
    · rw [BitVec.and_assoc]; congr 1; ext i hi; simp; cases a[i] <;> simp
    · rw [BitVec.and_assoc]; congr 1; ext i hi; simp; cases b[i] <;> simp
  · rintro ⟨ha, hb⟩
    rw [← hp]
    ext i hi
    have h1 := congrArg (fun v : Word => v[i]) ha
    have h2 := congrArg (fun v : Word => v[i]) hb
    simp only [BitVec.getElem_and, BitVec.getElem_or] at h1 h2 ⊢
    revert h1 h2
    cases w[i] <;> cases a[i] <;> cases b[i] <;> cases p[i] <;> simp

/-- The mask 0xF00F keeps the top and the bottom nibble. -/
theorem and_F00F_eq_iff (w p : Word) (hp : p &&& 0xF00F = p) :
    w &&& 0xF00F = p ↔ w.toNat / 0x1000 = p.toNat / 0x1000 ∧ fieldN w = fieldN p := by
  have hu : (0xF00F : Word) = 0xF000 ||| 0x000F := by decide
  have hm (v : Word) : (v &&& 0x000F).toNat = v.toNat % 2 ^ 4 := and_mask_toNat v 4 (by omega)
  rw [hu, and_union_eq_iff w _ _ p (by rw [← hu, hp]), ← BitVec.toNat_inj, ← BitVec.toNat_inj,
    and_F000_toNat, and_F000_toNat, hm, hm, fieldN, fieldN]
  omega

/-- The mask 0xF0FF keeps the top nibble and the low byte. -/
theorem and_F0FF_eq_iff (w p : Word) (hp : p &&& 0xF0FF = p) :
    w &&& 0xF0FF = p ↔ w.toNat / 0x1000 = p.toNat / 0x1000 ∧ w.toNat % 0x100 = p.toNat % 0x100 := by
  have hu : (0xF0FF : Word) = 0xF000 ||| 0x00FF := by decide
  have hm (v : Word) : (v &&& 0x00FF).toNat = v.toNat % 2 ^ 8 := and_mask_toNat v 8 (by omega)
  rw [hu, and_union_eq_iff w _ _ p (by rw [← hu, hp]), ← BitVec.toNat_inj, ← BitVec.toNat_inj,
    and_F000_toNat, and_F000_toNat, hm, hm]
  omega

theorem and_FFFF_eq (w : Word) : w &&& 0xFFFF = w := BitVec.and_allOnes

end Sys2Proof
end

