-- ==== Sys2Proof/Laws/Ops.lean ====
section
/-! SUPPORT. One lemma per shared operation: what the checks through I answer, what a store, a load and a key scan
do, and the fields of the flags and operands as numbers. -/

namespace Sys2Proof.Machine

/-! ### The checks through I (20 R65, R66) -/

/-- An access through I has no range error exactly when it has no bytes or all of them lie below 0x1000. -/
theorem State.rangeError_eq_none (s : State) (n : Nat) :
    s.rangeError n = none ↔ n = 0 ∨ s.i.toNat + n ≤ 0x1000 := by
  unfold State.rangeError
  split
  · next h => simp only [reduceCtorEq, false_iff]; omega
  · next h => simp only [true_iff]; omega

/-- A range error records the first address of the access that is 0x1000 or more, and PC (60 R307). -/
theorem State.rangeError_eq_some (s : State) {n : Nat} (hn : 0 < n) (h : 0x1000 < s.i.toNat + n) :
    s.rangeError n = some (.memoryOutOfRange (max s.i.toNat 0x1000) s.pc) := by
  unfold State.rangeError
  rw [if_pos (by omega)]

/-- A write through I may go on exactly when it has no bytes or all of them lie in 0x050..0xFFF. -/
theorem State.writeError_eq_none (s : State) (n : Nat) :
    s.writeError n = none ↔ n = 0 ∨ (0x50 ≤ s.i.toNat ∧ s.i.toNat + n ≤ 0x1000) := by
  unfold State.writeError
  cases h : s.rangeError n with
  | some e =>
    have hr : ¬ (n = 0 ∨ s.i.toNat + n ≤ 0x1000) := by rw [← s.rangeError_eq_none, h]; simp
    simp only [reduceCtorEq, false_iff]
    omega
  | none =>
    have hr := (s.rangeError_eq_none n).mp h
    simp only
    split
    · next hf => simp only [reduceCtorEq, false_iff]; omega
    · next hf => simp only [true_iff]; omega

/-- A write out of range: the range error. -/
theorem State.writeError_range (s : State) {n : Nat} (hn : 0 < n) (h : 0x1000 < s.i.toNat + n) :
    s.writeError n = some (.memoryOutOfRange (max s.i.toNat 0x1000) s.pc) := by
  rw [State.writeError, s.rangeError_eq_some hn h]

/-- A write in range that starts below 0x050: the font error (20 R66). -/
theorem State.writeError_font (s : State) {n : Nat} (hn : 0 < n) (hr : s.i.toNat + n ≤ 0x1000) (hf : s.i.toNat < 0x50) :
    s.writeError n = some (.fontWrite s.i s.pc) := by
  rw [State.writeError, (s.rangeError_eq_none n).mpr (.inr hr)]
  exact if_pos ⟨hn, hf⟩

/-! ### The transfers -/

/-- A store at I leaves every address outside its bytes alone. -/
theorem State.read_storeAtI_outside (s : State) (bs : List Byte) (a : Nat)
    (h : a < s.i.toNat ∨ s.i.toNat + bs.length ≤ a) : Memory.read (s.storeAtI bs).mem a = Memory.read s.mem a :=
  Memory.read_writeBytes_outside bs s.mem s.i.toNat a h

/-- A store at I puts byte k at I + k. -/
theorem State.read_storeAtI_inside (s : State) (bs : List Byte) (k : Nat) (h : k < bs.length) :
    Memory.read (s.storeAtI bs).mem (s.i.toNat + k) = bs[k] :=
  Memory.read_writeBytes_inside bs s.mem s.i.toNat k h

/-- A load from I writes V[0] to V[x] from memory and no other register (44 R245). -/
theorem State.loadFromI_getElem (s : State) (x k : Reg) : (s.loadFromI x).v[k.val] =
    if k ≤ x then Memory.read s.mem (s.i.toNat + k.val) else s.v[k.val] := by
  simp

@[simp] theorem decimalDigits_length (b : Byte) : (decimalDigits b).length = 3 := rfl

@[simp] theorem State.registersBelow_length (s : State) (x : Reg) : (s.registersBelow x).length = x.val := by
  simp only [State.registersBelow, List.length_take, Vector.length_toList]
  omega

theorem State.registersBelow_getElem (s : State) (x : Reg) (k : Nat) (h : k < x.val) :
    (s.registersBelow x)[k]'(by simpa using h) = s.v[k]'(by omega) := by
  simp [State.registersBelow]

/-- What Fx33 leaves at I, I + 1 and I + 2: hundreds, tens, ones (44 R243). -/
theorem State.read_storeAtI_digits (s : State) (b : Byte) :
    (Memory.read (s.storeAtI (decimalDigits b)).mem s.i.toNat).toNat = b.toNat / 100 ∧
    (Memory.read (s.storeAtI (decimalDigits b)).mem (s.i.toNat + 1)).toNat = b.toNat / 10 % 10 ∧
    (Memory.read (s.storeAtI (decimalDigits b)).mem (s.i.toNat + 2)).toNat = b.toNat % 10 := by
  have hb := b.isLt
  have h (k : Nat) (hk : k < 3) := s.read_storeAtI_inside (decimalDigits b) k hk
  have h0 := h 0 (by omega)
  rw [Nat.add_zero] at h0
  rw [h0, h 1 (by omega), h 2 (by omega)]
  simp only [decimalDigits, List.getElem_cons_zero, List.getElem_cons_succ, BitVec.toNat_ofNat]
  omega

/-- What Fx55 leaves at I + k for a register below x (44 R244). -/
theorem State.read_storeAtI_registers (s : State) {x k : Reg} (h : k < x) :
    Memory.read (s.storeAtI (s.registersBelow x)).mem (s.i.toNat + k.val) = s.v[k.val] := by
  rw [s.read_storeAtI_inside _ k.val (by simpa using h), State.registersBelow_getElem _ _ _ h]

/-! ### Registers -/

@[simp] theorem State.readV_setV_same (s : State) (x : Reg) (b : Byte) : (s.setV x b).readV x = b := by
  simp [State.readV]

theorem State.readV_setV_other (s : State) {x k : Reg} (b : Byte) (h : k ≠ x) : (s.setV x b).readV k = s.readV k := by
  have : x.val ≠ k.val := fun e => h (Fin.ext e.symm)
  simp [State.readV, this]

/-! ### The program counter -/

/-- The skip's extra advance and the auto-advance together (40 R125, R126). -/
@[simp] theorem add_two_add_two (p : Word) : p + 2#16 + 2#16 = p + 4#16 := by
  rw [BitVec.add_assoc]
  rfl

/-- The auto-advance of a PC far from 0xFFFF does not wrap. -/
theorem toNat_add_two {p : Word} (h : p.toNat + 2 ≤ 0xFFFF) : (p + 2#16).toNat = p.toNat + 2 := by
  rw [BitVec.toNat_add, BitVec.toNat_ofNat]
  omega

/-! ### The key scan (45 R275) -/

/-- A left-to-right scan that keeps the last hit of a rising list answers its greatest hit. -/
theorem foldl_last_hit (p : Fin 16 → Bool) (l : List (Fin 16)) (hl : l.Pairwise (· < ·)) :
    (∀ k, l.foldl (fun found k => if p k then some k else found) none = some k →
      k ∈ l ∧ p k = true ∧ ∀ j ∈ l, p j = true → j ≤ k) ∧
    (l.foldl (fun found k => if p k then some k else found) none = none → ∀ j ∈ l, p j = false) := by
  induction l using List.reverseRecOn with
  | nil => simp
  | append_singleton l a ih =>
    have hl' := List.pairwise_append.mp hl
    have ih := ih hl'.1
    rw [List.foldl_append, List.foldl_cons, List.foldl_nil]
    cases ha : p a with
    | true =>
      simp only [if_true, Option.some.injEq, reduceCtorEq, false_implies, and_true]
      rintro k rfl
      refine ⟨by simp, ha, fun j hj _ => ?_⟩
      rcases List.mem_append.mp hj with hj | hj
      · exact le_of_lt (hl'.2.2 j hj a (by simp))
      · simp at hj; exact le_of_eq hj
    | false =>
      simp only [Bool.false_eq_true, if_false]
      refine ⟨fun k hk => ?_, fun hn j hj => ?_⟩
      · obtain ⟨h1, h2, h3⟩ := ih.1 k hk
        refine ⟨List.mem_append_left _ h1, h2, fun j hj hpj => ?_⟩
        rcases List.mem_append.mp hj with hj | hj
        · exact h3 j hj hpj
        · simp at hj; rw [hj, ha] at hpj; simp at hpj
      · rcases List.mem_append.mp hj with hj | hj
        · exact ih.2 hn j hj
        · simp at hj; rw [hj, ha]

/-- The scan answers k exactly when k is pressed and no higher key is. -/
theorem State.scanKeys_eq_some (s : State) (k : Fin 16) :
    s.scanKeys = some k ↔ s.key k = true ∧ ∀ j, s.key j = true → j ≤ k := by
  have h := foldl_last_hit s.key (List.finRange 16) (List.pairwise_lt_finRange 16)
  constructor
  · intro hk
    obtain ⟨_, h2, h3⟩ := h.1 k hk
    exact ⟨h2, fun j hj => h3 j (List.mem_finRange j) hj⟩
  · rintro ⟨h2, h3⟩
    cases hs : s.scanKeys with
    | none => have := h.2 hs k (List.mem_finRange k); rw [h2] at this; simp at this
    | some j =>
      obtain ⟨_, j2, j3⟩ := h.1 j hs
      rw [le_antisymm (h3 j j2) (j3 k (List.mem_finRange k) h2)]

/-- The scan finds nothing exactly when no key is pressed. -/
theorem State.scanKeys_eq_none (s : State) : s.scanKeys = none ↔ ∀ k, s.key k = false := by
  have h := foldl_last_hit s.key (List.finRange 16) (List.pairwise_lt_finRange 16)
  constructor
  · exact fun hn k => h.2 hn k (List.mem_finRange k)
  · intro hk
    cases hs : s.scanKeys with
    | none => rfl
    | some j => have := (h.1 j hs).2.1; rw [hk j] at this; simp at this

/-! ### Operands and flags as numbers -/

theorem keyIndex_eq_some (b : Byte) (k : Fin 16) : keyIndex b = some k ↔ b.toNat = k.val := by
  unfold keyIndex
  split
  · next h => rw [Option.some.injEq, Fin.ext_iff]
  · next h => simp only [reduceCtorEq, false_iff]; omega

theorem keyIndex_eq_none (b : Byte) : keyIndex b = none ↔ 16 ≤ b.toNat := by
  unfold keyIndex
  split
  · next h => simp only [reduceCtorEq, false_iff]; omega
  · next h => simp only [true_iff]; omega

theorem v0Target_eq (v0 : Byte) (nnn : Word) :
    v0Target v0 nnn = BitVec.ofNat 16 ((v0.toNat + nnn.toNat) % 256) := by
  apply BitVec.eq_of_toNat_eq
  have h := lowByte_toNat nnn
  rw [v0Target, BitVec.toNat_setWidth, BitVec.toNat_add, BitVec.toNat_ofNat, h]
  omega

theorem countDown_toNat (t : Byte) : (countDown t).toNat = t.toNat - 1 := by
  revert t; decide

theorem flagOf_eq (c : Bool) : flagOf c = if c = true then 1 else 0 := rfl

theorem flagOf_isBit (c : Bool) : flagOf c = 0 ∨ flagOf c = 1 := by cases c <;> simp [flagOf]

theorem lowBitFlag_eq (a : Byte) : lowBitFlag a = BitVec.ofNat 8 (a.toNat % 2) := by
  revert a; decide

theorem highBitFlag_eq (a : Byte) : highBitFlag a = if 128 ≤ a.toNat then 1 else 0 := by
  revert a; decide

theorem lowBitFlag_isBit (a : Byte) : lowBitFlag a = 0 ∨ lowBitFlag a = 1 := by
  revert a; decide

end Sys2Proof.Machine
end

