-- ==== Sys2Proof/Laws/Draw.lean ====
section
/-! SUPPORT. What drawing a sprite does to every pixel and to F (41_display.md R151 to R154), from one pixel to one row
to all rows. -/

namespace Sys2Proof.Machine

/-! ### One pixel -/

theorem pixelIndex_inj {c c' : Fin 64} {r r' : Fin 32} (h : (pixelIndex c r).val = (pixelIndex c' r').val) :
    c = c' ∧ r = r' := by
  simp only [pixelIndex] at h
  exact ⟨Fin.ext (by omega), Fin.ext (by omega)⟩

@[simp] theorem Display.pix_setPix_same (d : Display) (c : Fin 64) (r : Fin 32) (b : Bool) :
    Display.pix (Display.setPix d c r b) c r = b := by
  simp [Display.pix, Display.setPix]

theorem Display.pix_setPix_other (d : Display) {c c' : Fin 64} {r r' : Fin 32} (b : Bool) (h : ¬ (c' = c ∧ r' = r)) :
    Display.pix (Display.setPix d c r b) c' r' = Display.pix d c' r' := by
  have : (pixelIndex c r).val ≠ (pixelIndex c' r').val := fun e => h (by
    obtain ⟨rfl, rfl⟩ := pixelIndex_inj e; exact ⟨rfl, rfl⟩)
  simp [Display.pix, Display.setPix, this]

/-- Two displays with the same pixels are the same. -/
theorem Display.ext_pix {d d' : Display} (h : ∀ c r, Display.pix d c r = Display.pix d' c r) : d = d' := by
  apply Vector.ext
  intro k hk
  have := h ⟨k % 64, by omega⟩ ⟨k / 64, by omega⟩
  simp only [Display.pix, pixelIndex] at this
  have hk' : k / 64 * 64 + k % 64 = k := by omega
  simpa [hk'] using this

/-- A set sprite bit inverts its pixel and no other (41 R151). -/
theorem Canvas.toggle_pix (k : Canvas) (c c' : Fin 64) (r r' : Fin 32) :
    Display.pix (k.toggle c r).display c' r' = (Display.pix k.display c' r' ^^ decide (c' = c ∧ r' = r)) := by
  by_cases h : c' = c ∧ r' = r
  · obtain ⟨rfl, rfl⟩ := h
    unfold Canvas.toggle
    split <;> simp_all
  · unfold Canvas.toggle
    split <;> simp [Display.pix_setPix_other _ _ h, h]

/-- A set sprite bit sets F on an on pixel and else leaves it (41 R154). -/
theorem Canvas.toggle_f (k : Canvas) (c : Fin 64) (r : Fin 32) :
    (k.toggle c r).f = if Display.pix k.display c r then 1 else k.f := by
  unfold Canvas.toggle
  split <;> rfl

/-! ### One row -/

/-- The columns from c0 right to c, wrapping (41 R153). -/
def columnsRight (c0 : Nat) (c : Fin 64) : Nat := (c.val + 64 - c0 % 64) % 64

theorem columnsRight_eq (c0 m : Nat) (hm : m < 64) (c : Fin 64) :
    c = wrapColumn (c0 + m) ↔ columnsRight c0 c = m := by
  rw [Fin.ext_iff, columnsRight]
  simp only [wrapColumn]
  omega

/-- The first m columns of a row's draw: the pixels of row r under a set bit are inverted, and F is set exactly when one
of them was on. -/
theorem Canvas.drawColumns_spec (k : Canvas) (b : Byte) (c0 : Nat) (r : Fin 32) (m : Nat) (hm : m ≤ 8) :
    let k' := (List.range m).foldl
      (fun acc col => if spriteBit b col then acc.toggle (wrapColumn (c0 + col)) r else acc) k
    (∀ c r', Display.pix k'.display c r' =
      (Display.pix k.display c r' ^^ (decide (r' = r) && decide (columnsRight c0 c < m) && spriteBit b (columnsRight c0 c)))) ∧
    (k'.f = if ∃ c, columnsRight c0 c < m ∧ spriteBit b (columnsRight c0 c) = true ∧ Display.pix k.display c r = true
      then 1 else k.f) := by
  induction m with
  | zero => simp
  | succ m ih =>
    obtain ⟨ihp, ihf⟩ := ih (by omega)
    simp only [List.range_succ, List.foldl_append, List.foldl_cons, List.foldl_nil]
    generalize hk' : (List.range m).foldl
      (fun acc col => if spriteBit b col then acc.toggle (wrapColumn (c0 + col)) r else acc) k = k' at ihp ihf ⊢
    have hcol (c : Fin 64) : columnsRight c0 c < m + 1 ↔ columnsRight c0 c < m ∨ columnsRight c0 c = m := by omega
    cases hb : spriteBit b m with
    | false =>
      simp only [Bool.false_eq_true, if_false]
      constructor
      · intro c r'
        rw [ihp]
        by_cases h : columnsRight c0 c = m
        · simp [h, hb]
        · have : decide (columnsRight c0 c < m + 1) = decide (columnsRight c0 c < m) := by
            simp only [decide_eq_decide]; omega
          rw [this]
      · rw [ihf]
        congr 1
        apply propext
        refine exists_congr fun c => ⟨fun h => ⟨by omega, h.2⟩, fun h => ⟨?_, h.2⟩⟩
        rcases (hcol c).mp h.1 with h' | h'
        · exact h'
        · rw [h', hb] at h; simp at h
    | true =>
      simp only [if_true]
      constructor
      · intro c r'
        rw [Canvas.toggle_pix, ihp]
        by_cases hc : columnsRight c0 c = m
        · have hc' := (columnsRight_eq c0 m (by omega) c).mpr hc
          simp [hc, hb, hc'.symm]
        · have hc' : c ≠ wrapColumn (c0 + m) := fun e => hc ((columnsRight_eq c0 m (by omega) c).mp e)
          have : decide (columnsRight c0 c < m + 1) = decide (columnsRight c0 c < m) := by
            simp only [decide_eq_decide]; omega
          rw [this]
          simp [hc']
      · have hself : columnsRight c0 (wrapColumn (c0 + m)) = m := (columnsRight_eq c0 m (by omega) _).mp rfl
        rw [Canvas.toggle_f, ihp, ihf]
        simp only [hself, Nat.lt_irrefl, decide_false, Bool.and_false, Bool.false_and, Bool.xor_false]
        by_cases hp : Display.pix k.display (wrapColumn (c0 + m)) r = true
        · have hex : ∃ c, columnsRight c0 c < m + 1 ∧ spriteBit b (columnsRight c0 c) = true ∧
              Display.pix k.display c r = true := ⟨_, by omega, by rw [hself, hb], hp⟩
          rw [if_pos hp, if_pos hex]
        · rw [if_neg hp]
          congr 1
          apply propext
          refine exists_congr fun c => ⟨fun h => ⟨by omega, h.2⟩, fun h => ⟨?_, h.2⟩⟩
          rcases (hcol c).mp h.1 with h' | h'
          · exact h'
          · exact absurd ((columnsRight_eq c0 m (by omega) c).mpr h' ▸ h.2.2) hp

/-- One sprite row byte: the whole row. -/
theorem Canvas.drawRow_spec (k : Canvas) (b : Byte) (c0 : Nat) (r : Fin 32) :
    (∀ c r', Display.pix (k.drawRow b c0 r).display c r' =
      (Display.pix k.display c r' ^^ (decide (r' = r) && decide (columnsRight c0 c < 8) && spriteBit b (columnsRight c0 c)))) ∧
    ((k.drawRow b c0 r).f = if ∃ c, columnsRight c0 c < 8 ∧ spriteBit b (columnsRight c0 c) = true ∧
      Display.pix k.display c r = true then 1 else k.f) :=
  Canvas.drawColumns_spec k b c0 r 8 (le_refl 8)

/-! ### All rows -/

/-- The rows from r0 down to r, wrapping (41 R153). -/
def rowsDown (r0 : Nat) (r : Fin 32) : Nat := (r.val + 32 - r0 % 32) % 32

/-- The sprite with row bytes bs, drawn at (c0, r0), has a set bit on pixel (c, r). -/
def bytesCover (bs : List Byte) (c0 r0 : Nat) (c : Fin 64) (r : Fin 32) : Bool :=
  match bs[rowsDown r0 r]? with
  | some b => decide (columnsRight c0 c < 8) && spriteBit b (columnsRight c0 c)
  | none => false

/-- The pixels of the first row byte, and of the bytes after it. -/
theorem bytesCover_cons (b : Byte) (bs : List Byte) (c0 r0 : Nat) (c : Fin 64) (r : Fin 32) :
    bytesCover (b :: bs) c0 r0 c r =
      if r = wrapRow r0 then decide (columnsRight c0 c < 8) && spriteBit b (columnsRight c0 c)
      else bytesCover bs c0 (r0 + 1) c r := by
  by_cases hr : r = wrapRow r0
  · have h0 : rowsDown r0 r = 0 := by
      rw [hr, rowsDown]; simp only [wrapRow]; omega
    rw [bytesCover, h0, if_pos hr]
    rfl
  · have h1 : rowsDown r0 r = rowsDown (r0 + 1) r + 1 := by
      have : r.val ≠ r0 % 32 := fun e => hr (Fin.ext (by simpa [wrapRow] using e))
      simp only [rowsDown]; omega
    simp [bytesCover, h1, hr]

/-- The bytes after the first row do not reach the first row. -/
theorem bytesCover_first_row (bs : List Byte) (hl : bs.length < 32) (c0 r0 : Nat) (c : Fin 64) :
    bytesCover bs c0 (r0 + 1) c (wrapRow r0) = false := by
  have h : rowsDown (r0 + 1) (wrapRow r0) = 31 := by
    simp only [rowsDown, wrapRow]; omega
  have hn : bs[31]? = none := List.getElem?_eq_none (by omega)
  rw [bytesCover, h, hn]

/-- Drawing a sprite of at most 32 rows: every pixel under a set bit is inverted and no other; F is set exactly when one
of them was on (41 R151, R153, R154). -/
theorem Canvas.drawRows_spec (bs : List Byte) : ∀ (k : Canvas) (c0 r0 : Nat), bs.length ≤ 32 →
    (∀ c r, Display.pix (Canvas.drawRows k bs c0 r0).display c r =
      (Display.pix k.display c r ^^ bytesCover bs c0 r0 c r)) ∧
    ((Canvas.drawRows k bs c0 r0).f =
      if ∃ c r, bytesCover bs c0 r0 c r = true ∧ Display.pix k.display c r = true then 1 else k.f) := by
  induction bs with
  | nil => intro k c0 r0 _; simp [Canvas.drawRows, bytesCover]
  | cons b bs ih =>
    intro k c0 r0 hl
    simp only [List.length_cons] at hl
    have hl' : bs.length < 32 := by omega
    obtain ⟨hp, hf⟩ := Canvas.drawRow_spec k b c0 (wrapRow r0)
    obtain ⟨ihp, ihf⟩ := ih (k.drawRow b c0 (wrapRow r0)) c0 (r0 + 1) (by omega)
    constructor
    · intro c r
      rw [Canvas.drawRows, ihp, hp, bytesCover_cons b bs]
      by_cases hr : r = wrapRow r0
      · subst hr
        simp [bytesCover_first_row bs hl']
      · simp [hr]
    · rw [Canvas.drawRows, ihf, hf]
      by_cases h1 : ∃ c r, bytesCover bs c0 (r0 + 1) c r = true ∧
          Display.pix (k.drawRow b c0 (wrapRow r0)).display c r = true
      · rw [if_pos h1]
        obtain ⟨c, r, hc, hk⟩ := h1
        have hr : r ≠ wrapRow r0 := by
          rintro rfl
          rw [bytesCover_first_row bs hl'] at hc
          simp at hc
        refine (if_pos ⟨c, r, ?_, ?_⟩).symm
        · rw [bytesCover_cons b bs, if_neg hr, hc]
        · rw [hp] at hk
          simpa [hr] using hk
      · rw [if_neg h1]
        congr 1
        apply propext
        constructor
        · rintro ⟨c, h8, hb, hk⟩
          refine ⟨c, wrapRow r0, ?_, hk⟩
          rw [bytesCover_cons b bs, if_pos rfl]
          simp [h8, hb]
        · rintro ⟨c, r, hc, hk⟩
          rw [bytesCover_cons b bs] at hc
          by_cases hr : r = wrapRow r0
          · subst hr
            rw [if_pos rfl] at hc
            simp only [Bool.and_eq_true, decide_eq_true_eq] at hc
            exact ⟨c, hc.1, hc.2, hk⟩
          · rw [if_neg hr] at hc
            refine absurd ⟨c, r, hc, ?_⟩ h1
            rw [hp]
            simpa [hr] using hk

/-- The sprite of Dxyn in a state, as `spriteCovers` says it. -/
theorem spriteCovers_eq (s : State) (x y : Reg) (n : Nat) (c : Fin 64) (r : Fin 32) :
    bytesCover (s.spriteRows n) (startColumn (s.readV x)) (startRow (s.readV y)) c r = spriteCovers s x y n c r := by
  have hr : rowsDown (startRow (s.readV y)) r = rowsBelowStart (s.readV y) r := by
    simp only [rowsDown, rowsBelowStart, startRow]; omega
  have hc : columnsRight (startColumn (s.readV x)) c = columnsRightOfStart (s.readV x) c := by
    simp only [columnsRight, columnsRightOfStart, startColumn]; omega
  unfold bytesCover spriteCovers
  rw [hr, hc]
  by_cases h : rowsBelowStart (s.readV y) r < n
  · simp [State.spriteRows, h, spriteBit]
  · simp [State.spriteRows, h]

end Sys2Proof.Machine
end

