-- ==== Sys2Proof/Laws/Encode.lean ====
section
/-! SUPPORT. The numbers of the encoder's words, and so their fields (30_encoding.md R91, R102). -/

namespace Sys2Proof

/-- Bits below 2^k put into a word whose low k bits are 0 are added to it. -/
theorem or_toNat_of_disjoint (a b : Word) (k : Nat) (ha : a.toNat % 2 ^ k = 0) (hb : b.toNat < 2 ^ k) :
    (a ||| b).toNat = a.toNat + b.toNat := by
  have h := Nat.div_add_mod a.toNat (2 ^ k)
  rw [ha, Nat.add_zero] at h
  rw [BitVec.toNat_or, ← h, Nat.two_pow_add_eq_or_of_lt hb]

theorem atX_toNat (x : Reg) : (atX x).toNat = x.val * 256 := by
  revert x; decide

theorem atY_toNat (y : Reg) : (atY y).toNat = y.val * 16 := by
  revert y; decide

theorem formNNN_toNat {op : Word} (h : op.toNat % 0x1000 = 0) (nnn : Word) :
    (formNNN op nnn).toNat = op.toNat + nnn.toNat % 0x1000 := by
  have hn : (nnn &&& 0x0FFF).toNat = nnn.toNat % 2 ^ 12 := and_mask_toNat nnn 12 (by omega)
  rw [formNNN, or_toNat_of_disjoint _ _ 12 h (by omega), hn]
  rfl

theorem formXKK_toNat {op : Word} (h : op.toNat % 0x1000 = 0) (x : Reg) (kk : Byte) :
    (formXKK op x kk).toNat = op.toNat + x.val * 256 + kk.toNat := by
  have hx := atX_toNat x
  have hk : (kk.setWidth 16).toNat = kk.toNat := by
    have := kk.isLt
    rw [BitVec.toNat_setWidth]
    omega
  have h1 : (op ||| atX x).toNat = op.toNat + x.val * 256 := by
    rw [or_toNat_of_disjoint _ _ 12 h (by omega), hx]
  rw [formXKK, or_toNat_of_disjoint _ _ 8 (by omega) (by have := kk.isLt; omega), h1, hk]

theorem formXYN_toNat {op : Word} (h : op.toNat % 0x1000 = 0) (x y : Reg) (n : Nat) :
    (formXYN op x y n).toNat = op.toNat + x.val * 256 + y.val * 16 + n % 16 := by
  have hx := atX_toNat x
  have hy := atY_toNat y
  have hn : (BitVec.ofNat 16 (n % 16)).toNat = n % 16 := by
    rw [BitVec.toNat_ofNat]
    omega
  have h1 : (op ||| atX x).toNat = op.toNat + x.val * 256 := by
    rw [or_toNat_of_disjoint _ _ 12 h (by omega), hx]
  have h2 : (op ||| atX x ||| atY y).toNat = op.toNat + x.val * 256 + y.val * 16 := by
    rw [or_toNat_of_disjoint _ _ 8 (by omega) (by omega), h1, hy]
  rw [formXYN, or_toNat_of_disjoint _ _ 4 (by omega) (by omega), h2, hn]

theorem atX_and_0F00 (x : Reg) : atX x &&& 0x0F00 = atX x := by
  revert x; decide

/-- A word of the two E rows or the nine F rows, whose pattern has 0 in the place of x. -/
theorem formX_toNat {op : Word} (h : op &&& 0x0F00 = 0) (hle : op.toNat ≤ 0xF0FF) (x : Reg) :
    (formX op x).toNat = op.toNat + x.val * 256 := by
  have hand : op &&& atX x = 0 := by
    rw [← atX_and_0F00 x, BitVec.and_comm (atX x), ← BitVec.and_assoc, h]
    exact BitVec.zero_and
  rw [formX, ← BitVec.add_eq_or_of_and_eq_zero op (atX x) hand, BitVec.toNat_add, atX_toNat]
  omega

/-! ### The encoder's words carry their row's fixed bits (30 R98) -/

theorem formNNN_hits {op : Word} (h : op.toNat % 0x1000 = 0) (nnn : Word) : formNNN op nnn &&& 0xF000 = op := by
  rw [and_F000_eq_iff _ _ h, formNNN_toNat h]
  omega

theorem formXKK_hits {op : Word} (h : op.toNat % 0x1000 = 0) (x : Reg) (kk : Byte) : formXKK op x kk &&& 0xF000 = op := by
  have := kk.isLt
  rw [and_F000_eq_iff _ _ h, formXKK_toNat h]
  omega

theorem formXYN_hits {op : Word} (h : op.toNat % 0x1000 = 0) (x y : Reg) (n : Nat) :
    formXYN op x y n &&& 0xF000 = op := by
  rw [and_F000_eq_iff _ _ h, formXYN_toNat h]
  omega

theorem formXYN_hits_nibble {op p : Word} {n : Nat} (h : op.toNat % 0x1000 = 0) (hp : p &&& 0xF00F = p)
    (hn : p.toNat = op.toNat + n % 16) (x y : Reg) : formXYN op x y n &&& 0xF00F = p := by
  rw [and_F00F_eq_iff _ _ hp, fieldN, fieldN, formXYN_toNat h]
  omega

theorem formX_hits {op : Word} (h : op &&& 0x0F00 = 0) (hle : op.toNat ≤ 0xF0FF) (hp : op &&& 0xF0FF = op) (x : Reg) :
    formX op x &&& 0xF0FF = op := by
  have h12 : op.toNat % 0x1000 < 0x100 := by
    have h8 : op &&& 0x0FFF = op &&& 0x00FF := by
      have : (0x0FFF : Word) = 0x0F00 ||| 0x00FF := by decide
      rw [this, BitVec.and_or_distrib_left, h]
      exact BitVec.zero_or
    have h8' := congrArg BitVec.toNat h8
    have a1 : (op &&& 0x0FFF).toNat = op.toNat % 2 ^ 12 := and_mask_toNat op 12 (by omega)
    have a2 : (op &&& 0x00FF).toNat = op.toNat % 2 ^ 8 := and_mask_toNat op 8 (by omega)
    omega
  rw [and_F0FF_eq_iff _ _ hp, formX_toNat h hle]
  omega

end Sys2Proof
end

