-- ==== Sys2Proof/Laws/Instr.lean ====
section
/-! SUPPORT. One lemma per instruction: when its `exec` answers a next state, and which. A proof over all instructions
takes its hypothesis apart with these, `cases i`, and the field lemmas of Laws/State.lean. -/

namespace Sys2Proof.Machine

variable (s t : State)

/-! ### Display -/

theorem exec_cls_next : exec .cls s = .next t ↔ t = s.clearDisplay.requestRedraw.autoAdvance := by
  simp only [exec, execCls, Host.Outcome.next.injEq, eq_comm]

theorem exec_drw_next (x y : Reg) (n : Nat) : exec (.drw x y n) s = .next t ↔ s.rangeError n = none ∧
    t = (s.drawSprite (startColumn (s.readV x)) (startRow (s.readV y)) n).requestRedraw.autoAdvance := by
  simp only [exec, execDrw, raise]
  split <;> simp_all [eq_comm (b := t)]

/-! ### Control flow -/

theorem exec_ret_next : exec .ret s = .next t ↔ s.sp ≠ 0 ∧ t = s.pop.autoAdvance := by
  simp only [exec, execRet, raise]
  split <;> simp_all [eq_comm (b := t)]

theorem exec_jp_next (nnn : Word) : exec (.jp nnn) s = .next t ↔ t = s.setPC (address11 nnn) := by
  simp only [exec, execJp, Host.Outcome.next.injEq, eq_comm]

theorem exec_call_next (nnn : Word) : exec (.call nnn) s = .next t ↔
    s.sp ≠ 15 ∧ t = s.push.setPC (address11 nnn) := by
  simp only [exec, execCall, raise]
  split <;> simp_all [eq_comm (b := t)]

theorem exec_seImm_next (x : Reg) (kk : Byte) : exec (.seImm x kk) s = .next t ↔
    t = (s.skipIf (s.readV x == kk)).autoAdvance := by
  simp only [exec, execSeImm, Host.Outcome.next.injEq, eq_comm]

theorem exec_sneImm_next (x : Reg) (kk : Byte) : exec (.sneImm x kk) s = .next t ↔
    t = (s.skipIf (s.readV x != kk)).autoAdvance := by
  simp only [exec, execSneImm, Host.Outcome.next.injEq, eq_comm]

theorem exec_seReg_next (x y : Reg) : exec (.seReg x y) s = .next t ↔
    t = (s.skipIf (s.readV x == s.readV y)).autoAdvance := by
  simp only [exec, execSeReg, Host.Outcome.next.injEq, eq_comm]

/-- 9xy0 never skips (42 R176). -/
theorem exec_sneReg_next (x y : Reg) : exec (.sneReg x y) s = .next t ↔ t = s.autoAdvance := by
  simp only [exec, execSneReg, bne_self_eq_false, State.skipIf, Bool.false_eq_true, if_false, State.setPC,
    Host.Outcome.next.injEq, eq_comm]

theorem exec_jpV0_next (nnn : Word) : exec (.jpV0 nnn) s = .next t ↔ t = s.setPC (v0Target (s.readV 0) nnn) := by
  simp only [exec, execJpV0, Host.Outcome.next.injEq, eq_comm]

/-! ### Register loads and the ALU -/

theorem exec_ldImm_next (x : Reg) (kk : Byte) : exec (.ldImm x kk) s = .next t ↔ t = (s.setV x kk).autoAdvance := by
  simp only [exec, execLdImm, Host.Outcome.next.injEq, eq_comm]

theorem exec_addImm_next (x : Reg) (kk : Byte) : exec (.addImm x kk) s = .next t ↔
    t = (s.setV x (s.readV x + kk)).autoAdvance := by
  simp only [exec, execAddImm, Host.Outcome.next.injEq, eq_comm]

theorem exec_ldReg_next (x y : Reg) : exec (.ldReg x y) s = .next t ↔ t = (s.setV x (s.readV y)).autoAdvance := by
  simp only [exec, execLdReg, Host.Outcome.next.injEq, eq_comm]

theorem exec_orReg_next (x y : Reg) : exec (.orReg x y) s = .next t ↔
    t = (s.setV x (s.readV x ||| s.readV y)).autoAdvance := by
  simp only [exec, execOrReg, Host.Outcome.next.injEq, eq_comm]

theorem exec_andReg_next (x y : Reg) : exec (.andReg x y) s = .next t ↔
    t = (s.setV x (s.readV x &&& s.readV y)).autoAdvance := by
  simp only [exec, execAndReg, Host.Outcome.next.injEq, eq_comm]

theorem exec_xorReg_next (x y : Reg) : exec (.xorReg x y) s = .next t ↔
    t = (s.setV x (s.readV x ^^^ s.readV y)).autoAdvance := by
  simp only [exec, execXorReg, Host.Outcome.next.injEq, eq_comm]

theorem exec_addReg_next (x y : Reg) : exec (.addReg x y) s = .next t ↔
    t = ((s.setF (carryFlag (s.readV x) (s.readV y))).setV x (s.readV x + s.readV y)).autoAdvance := by
  simp only [exec, execAddReg, Host.Outcome.next.injEq, eq_comm]

theorem exec_subReg_next (x y : Reg) : exec (.subReg x y) s = .next t ↔
    t = ((s.setF (greaterFlag (s.readV x) (s.readV y))).setV x (s.readV x - s.readV y)).autoAdvance := by
  simp only [exec, execSubReg, Host.Outcome.next.injEq, eq_comm]

theorem exec_shr_next (x y : Reg) : exec (.shr x y) s = .next t ↔
    t = ((s.setF (lowBitFlag (s.readV x))).setV x (s.readV x >>> 1)).autoAdvance := by
  simp only [exec, execShr, Host.Outcome.next.injEq, eq_comm]

theorem exec_subnReg_next (x y : Reg) : exec (.subnReg x y) s = .next t ↔
    t = ((s.setF (greaterFlag (s.readV y) (s.readV x))).setV x (s.readV y - s.readV x)).autoAdvance := by
  simp only [exec, execSubnReg, Host.Outcome.next.injEq, eq_comm]

theorem exec_shl_next (x y : Reg) : exec (.shl x y) s = .next t ↔
    t = ((s.setF (highBitFlag (s.readV x))).setV x (s.readV x <<< 1)).autoAdvance := by
  simp only [exec, execShl, Host.Outcome.next.injEq, eq_comm]

theorem exec_rnd_next (x : Reg) (kk : Byte) : exec (.rnd x kk) s = .next t ↔
    ∃ b, s.random = .byte b ∧ t = (s.setV x b).autoAdvance := by
  simp only [exec, execRnd, raise]
  split <;> simp_all [eq_comm (b := t)]

/-! ### Index register and memory -/

theorem exec_ldI_next (nnn : Word) : exec (.ldI nnn) s = .next t ↔ t = (s.setI (address11 nnn)).autoAdvance := by
  simp only [exec, execLdI, Host.Outcome.next.injEq, eq_comm]

theorem exec_addI_next (x : Reg) : exec (.addI x) s = .next t ↔
    t = (s.setI (s.i + (s.readV x).setWidth 16)).autoAdvance := by
  simp only [exec, execAddI, Host.Outcome.next.injEq, eq_comm]

theorem exec_ldF_next (x : Reg) : exec (.ldF x) s = .next t ↔ t = (s.setI (glyphAddress x)).autoAdvance := by
  simp only [exec, execLdF, Host.Outcome.next.injEq, eq_comm]

theorem exec_ldB_next (x : Reg) : exec (.ldB x) s = .next t ↔
    s.writeError 3 = none ∧ t = (s.storeAtI (decimalDigits (s.readV x))).autoAdvance := by
  simp only [exec, execLdB, raise]
  split <;> simp_all [eq_comm (b := t)]

theorem exec_storeRegs_next (x : Reg) : exec (.storeRegs x) s = .next t ↔
    s.writeError x.val = none ∧ t = (s.storeAtI (s.registersBelow x)).autoAdvance := by
  simp only [exec, execStoreRegs, raise]
  split <;> simp_all [eq_comm (b := t)]

theorem exec_loadRegs_next (x : Reg) : exec (.loadRegs x) s = .next t ↔
    s.rangeError (x.val + 1) = none ∧ t = (s.loadFromI x).autoAdvance := by
  simp only [exec, execLoadRegs, raise]
  split <;> simp_all [eq_comm (b := t)]

/-! ### Timers and keys -/

theorem exec_ldVxDT_next (x : Reg) : exec (.ldVxDT x) s = .next t ↔ t = (s.setV x s.dt).autoAdvance := by
  simp only [exec, execLdVxDT, Host.Outcome.next.injEq, eq_comm]

theorem exec_ldDTVx_next (x : Reg) : exec (.ldDTVx x) s = .next t ↔ t = (s.setDT (s.readV x)).autoAdvance := by
  simp only [exec, execLdDTVx, Host.Outcome.next.injEq, eq_comm]

theorem exec_ldSTVx_next (x : Reg) : exec (.ldSTVx x) s = .next t ↔ t = (s.setST (s.readV x)).autoAdvance := by
  simp only [exec, execLdSTVx, Host.Outcome.next.injEq, eq_comm]

theorem exec_skp_next (x : Reg) : exec (.skp x) s = .next t ↔
    ∃ k : Fin 16, (s.readV x).toNat = k.val ∧ t = (s.skipIf (s.key k)).autoAdvance := by
  simp only [← keyIndex_eq_some, exec, execSkp, raise]
  split <;> simp_all [eq_comm (b := t)]

theorem exec_sknp_next (x : Reg) : exec (.sknp x) s = .next t ↔
    ∃ k : Fin 16, (s.readV x).toNat = k.val ∧ t = (s.skipIf (!s.key k)).autoAdvance := by
  simp only [← keyIndex_eq_some, exec, execSknp, raise]
  split <;> simp_all [eq_comm (b := t)]

theorem exec_ldVxK_next (x : Reg) : exec (.ldVxK x) s = .next t ↔
    (∃ k, s.scanKeys = some k ∧ t = (s.setV x (BitVec.ofNat 8 k.val)).autoAdvance) ∨ (s.scanKeys = none ∧ t = s) := by
  simp only [exec, execLdVxK]
  split <;> simp_all [eq_comm (b := t)]

end Sys2Proof.Machine
end

