-- ==== Sys2Proof/Laws/Exec.lean ====
section
/-! SUPPORT. What a step can do, said once: the fetch, the inversion of a step that completes, and what a step answers
when its fetch or its decode fails. -/

namespace Sys2Proof.Machine

/-- The fetch answers the two bytes at PC exactly when PC + 1 is below 0x1000 (40 R121). -/
theorem State.fetch_of_inRange {s : State} (h : s.fetchesInRange) :
    s.fetch = .ok (Memory.read s.mem s.pc.toNat, Memory.read s.mem (s.pc.toNat + 1)) := by
  unfold State.fetchesInRange at h
  rw [State.fetch, if_neg (by omega)]

theorem State.fetch_of_not_inRange {s : State} (h : ¬ s.fetchesInRange) : s.fetch = .error (.fetchOutOfRange s.pc) := by
  unfold State.fetchesInRange at h
  rw [State.fetch, if_pos (by omega)]

/-- The bytes at PC decode as the word at PC does. -/
theorem State.decode_at_pc (s : State) :
    decode (Memory.read s.mem s.pc.toNat) (Memory.read s.mem (s.pc.toNat + 1)) = decodeWord s.wordAtPC := by
  simp [decodeWord, State.wordAtPC]

/-- A fetch out of range ends the run (60 R306). -/
theorem step_of_not_inRange {s : State} (h : ¬ s.fetchesInRange) : step s = .fault (.fetchOutOfRange s.pc) := by
  simp [step, cycleThenHost, cycle, State.fetch_of_not_inRange h, raise]

/-- A word that matches no row ends the run (60 R302). -/
theorem step_of_unknown {s : State} (h : s.fetchesInRange) {w : Word}
    (hd : decodeWord s.wordAtPC = .error (.unknownOpcode w)) : step s = .fault (.unknownOpcode w s.pc) := by
  simp [step, cycleThenHost, cycle, State.fetch_of_inRange h, State.decode_at_pc, hd, raise]

/-- A step whose word decodes runs that instruction on the state whose timers have counted down (40 R131). -/
theorem step_of_runsNext {s : State} {i : Instr} (h : s.runsNext i) :
    step s = match exec i s.tickTimers with
      | .next t => .next t.countCycle.hostTurn
      | .fault e => .fault e
      | .refused r => .refused r := by
  simp only [step, cycleThenHost, cycle, State.fetch_of_inRange h.1, State.decode_at_pc, h.2]
  cases exec i s.tickTimers <;> rfl

/-- The next instruction, or what keeps the state from having one. -/
theorem State.next_cases (s : State) : (∃ i, s.runsNext i) ∨ ¬ s.fetchesInRange ∨
    (s.fetchesInRange ∧ (∀ r ∈ rows, r.hits s.wordAtPC = false) ∧
      decodeWord s.wordAtPC = .error (.unknownOpcode s.wordAtPC)) := by
  by_cases h : s.fetchesInRange
  · rcases decodeWord_cases s.wordAtPC with ⟨r, _, _, hd⟩ | hn
    · exact .inl ⟨_, h, hd⟩
    · exact .inr (.inr ⟨h, hn⟩)
  · exact .inr (.inl h)

/-- INVERSION: a step that completes ran one instruction that completes, counted the cycle, and gave the host its turn. -/
theorem step_eq_next {s t : State} : step s = .next t ↔
    ∃ i u, s.runsNext i ∧ exec i s.tickTimers = .next u ∧ t = u.countCycle.hostTurn := by
  constructor
  · intro h
    rcases s.next_cases with ⟨i, hi⟩ | hn | ⟨hr, _, hd⟩
    · rw [step_of_runsNext hi] at h
      cases he : exec i s.tickTimers with
      | next u => rw [he] at h; exact ⟨i, u, hi, he, by simpa using h.symm⟩
      | fault e => rw [he] at h; simp at h
      | refused r => rw [he] at h; simp at h
    · rw [step_of_not_inRange hn] at h; simp at h
    · rw [step_of_unknown hr hd] at h; simp at h
  · rintro ⟨i, u, hi, he, rfl⟩
    rw [step_of_runsNext hi, he]

/-- A state has at most one next instruction. -/
theorem State.runsNext_unique {s : State} {i j : Instr} (hi : s.runsNext i) (hj : s.runsNext j) : i = j := by
  have := hi.2.symm.trans hj.2
  simpa using this

end Sys2Proof.Machine
end

