-- ==== Sys2Proof/Laws/PerInstr.lean ====
section
/-! SUPPORT. Statements about every instruction as syntax, one lemma per constructor. Family RowBits: an instruction's
word carries exactly its row's fixed bits (30_encoding.md R98), whatever its operands. -/

namespace Sys2Proof

/-- The fixed bits of the instruction's row: mask and pattern (30 R98). -/
def rowBitsOf : Instr → Word × Word
  | .cls => (0xFFFF, 0x00E0)
  | .ret => (0xFFFF, 0x00EE)
  | .jp _ => (0xF000, 0x1000)
  | .call _ => (0xF000, 0x2000)
  | .seImm _ _ => (0xF000, 0x3000)
  | .sneImm _ _ => (0xF000, 0x4000)
  | .seReg _ _ => (0xF00F, 0x5000)
  | .ldImm _ _ => (0xF000, 0x6000)
  | .addImm _ _ => (0xF000, 0x7000)
  | .ldReg _ _ => (0xF00F, 0x8000)
  | .orReg _ _ => (0xF00F, 0x8001)
  | .andReg _ _ => (0xF00F, 0x8002)
  | .xorReg _ _ => (0xF00F, 0x8003)
  | .addReg _ _ => (0xF00F, 0x8004)
  | .subReg _ _ => (0xF00F, 0x8005)
  | .shr _ _ => (0xF00F, 0x8006)
  | .subnReg _ _ => (0xF00F, 0x8007)
  | .shl _ _ => (0xF00F, 0x800E)
  | .sneReg _ _ => (0xF00F, 0x9000)
  | .ldI _ => (0xF000, 0xA000)
  | .jpV0 _ => (0xF000, 0xB000)
  | .rnd _ _ => (0xF000, 0xC000)
  | .drw _ _ _ => (0xF000, 0xD000)
  | .skp _ => (0xF0FF, 0xE09E)
  | .sknp _ => (0xF0FF, 0xE0A1)
  | .ldVxDT _ => (0xF0FF, 0xF007)
  | .ldVxK _ => (0xF0FF, 0xF00A)
  | .ldDTVx _ => (0xF0FF, 0xF015)
  | .ldSTVx _ => (0xF0FF, 0xF018)
  | .addI _ => (0xF0FF, 0xF01E)
  | .ldF _ => (0xF0FF, 0xF029)
  | .ldB _ => (0xF0FF, 0xF033)
  | .storeRegs _ => (0xF0FF, 0xF055)
  | .loadRegs _ => (0xF0FF, 0xF065)

/-- The instruction's word matches its row's mask and pattern. -/
def Laws.RowBits.Statement (i : Instr) : Prop := encode i &&& (rowBitsOf i).1 = (rowBitsOf i).2

theorem Laws.RowBits.cls : Laws.RowBits.Statement (.cls) :=
  and_FFFF_eq _

theorem Laws.RowBits.ret : Laws.RowBits.Statement (.ret) :=
  and_FFFF_eq _

theorem Laws.RowBits.jp (nnn : Word) : Laws.RowBits.Statement (.jp nnn) :=
  formNNN_hits (by decide) nnn

theorem Laws.RowBits.call (nnn : Word) : Laws.RowBits.Statement (.call nnn) :=
  formNNN_hits (by decide) nnn

theorem Laws.RowBits.seImm (x : Reg) (kk : Byte) : Laws.RowBits.Statement (.seImm x kk) :=
  formXKK_hits (by decide) x kk

theorem Laws.RowBits.sneImm (x : Reg) (kk : Byte) : Laws.RowBits.Statement (.sneImm x kk) :=
  formXKK_hits (by decide) x kk

theorem Laws.RowBits.seReg (x y : Reg) : Laws.RowBits.Statement (.seReg x y) :=
  formXYN_hits_nibble (p := 0x5000) (by decide) (by decide) (by decide) x y

theorem Laws.RowBits.ldImm (x : Reg) (kk : Byte) : Laws.RowBits.Statement (.ldImm x kk) :=
  formXKK_hits (by decide) x kk

theorem Laws.RowBits.addImm (x : Reg) (kk : Byte) : Laws.RowBits.Statement (.addImm x kk) :=
  formXKK_hits (by decide) x kk

theorem Laws.RowBits.ldReg (x y : Reg) : Laws.RowBits.Statement (.ldReg x y) :=
  formXYN_hits_nibble (p := 0x8000) (by decide) (by decide) (by decide) x y

theorem Laws.RowBits.orReg (x y : Reg) : Laws.RowBits.Statement (.orReg x y) :=
  formXYN_hits_nibble (p := 0x8001) (by decide) (by decide) (by decide) x y

theorem Laws.RowBits.andReg (x y : Reg) : Laws.RowBits.Statement (.andReg x y) :=
  formXYN_hits_nibble (p := 0x8002) (by decide) (by decide) (by decide) x y

theorem Laws.RowBits.xorReg (x y : Reg) : Laws.RowBits.Statement (.xorReg x y) :=
  formXYN_hits_nibble (p := 0x8003) (by decide) (by decide) (by decide) x y

theorem Laws.RowBits.addReg (x y : Reg) : Laws.RowBits.Statement (.addReg x y) :=
  formXYN_hits_nibble (p := 0x8004) (by decide) (by decide) (by decide) x y

theorem Laws.RowBits.subReg (x y : Reg) : Laws.RowBits.Statement (.subReg x y) :=
  formXYN_hits_nibble (p := 0x8005) (by decide) (by decide) (by decide) x y

theorem Laws.RowBits.shr (x y : Reg) : Laws.RowBits.Statement (.shr x y) :=
  formXYN_hits_nibble (p := 0x8006) (by decide) (by decide) (by decide) x y

theorem Laws.RowBits.subnReg (x y : Reg) : Laws.RowBits.Statement (.subnReg x y) :=
  formXYN_hits_nibble (p := 0x8007) (by decide) (by decide) (by decide) x y

theorem Laws.RowBits.shl (x y : Reg) : Laws.RowBits.Statement (.shl x y) :=
  formXYN_hits_nibble (p := 0x800E) (by decide) (by decide) (by decide) x y

theorem Laws.RowBits.sneReg (x y : Reg) : Laws.RowBits.Statement (.sneReg x y) :=
  formXYN_hits_nibble (p := 0x9000) (by decide) (by decide) (by decide) x y

theorem Laws.RowBits.ldI (nnn : Word) : Laws.RowBits.Statement (.ldI nnn) :=
  formNNN_hits (by decide) nnn

theorem Laws.RowBits.jpV0 (nnn : Word) : Laws.RowBits.Statement (.jpV0 nnn) :=
  formNNN_hits (by decide) nnn

theorem Laws.RowBits.rnd (x : Reg) (kk : Byte) : Laws.RowBits.Statement (.rnd x kk) :=
  formXKK_hits (by decide) x kk

theorem Laws.RowBits.drw (x y : Reg) (n : Nat) : Laws.RowBits.Statement (.drw x y n) :=
  formXYN_hits (by decide) x y n

theorem Laws.RowBits.skp (x : Reg) : Laws.RowBits.Statement (.skp x) :=
  formX_hits (by decide) (by decide) (by decide) x

theorem Laws.RowBits.sknp (x : Reg) : Laws.RowBits.Statement (.sknp x) :=
  formX_hits (by decide) (by decide) (by decide) x

theorem Laws.RowBits.ldVxDT (x : Reg) : Laws.RowBits.Statement (.ldVxDT x) :=
  formX_hits (by decide) (by decide) (by decide) x

theorem Laws.RowBits.ldVxK (x : Reg) : Laws.RowBits.Statement (.ldVxK x) :=
  formX_hits (by decide) (by decide) (by decide) x

theorem Laws.RowBits.ldDTVx (x : Reg) : Laws.RowBits.Statement (.ldDTVx x) :=
  formX_hits (by decide) (by decide) (by decide) x

theorem Laws.RowBits.ldSTVx (x : Reg) : Laws.RowBits.Statement (.ldSTVx x) :=
  formX_hits (by decide) (by decide) (by decide) x

theorem Laws.RowBits.addI (x : Reg) : Laws.RowBits.Statement (.addI x) :=
  formX_hits (by decide) (by decide) (by decide) x

theorem Laws.RowBits.ldF (x : Reg) : Laws.RowBits.Statement (.ldF x) :=
  formX_hits (by decide) (by decide) (by decide) x

theorem Laws.RowBits.ldB (x : Reg) : Laws.RowBits.Statement (.ldB x) :=
  formX_hits (by decide) (by decide) (by decide) x

theorem Laws.RowBits.storeRegs (x : Reg) : Laws.RowBits.Statement (.storeRegs x) :=
  formX_hits (by decide) (by decide) (by decide) x

theorem Laws.RowBits.loadRegs (x : Reg) : Laws.RowBits.Statement (.loadRegs x) :=
  formX_hits (by decide) (by decide) (by decide) x

end Sys2Proof
end

