-- ==== Sys2Proof/Tests/Slice0.lean ====
section
/-! SUPPORT. The model's own tests. Expected results are those of 95_test_vectors.md (W<n>, T-<family> rows, named in each
docstring) or are read from the rule cited. The last part holds, for every obligation with hypotheses, a named witness
that meets them together. -/

namespace Sys2Proof.Tests

-- One theorem is checked at a time: many kernel evaluations at once would each hold a thread.
set_option Elab.async false

open Sys2Proof Sys2Proof.Machine

/-! ### Well-formedness: a check refuses its ill-formed term -/

theorem test_wf_refuses_wide_jp : (Instr.jp 0x1000).wellFormed = false := by decide
theorem test_wf_refuses_wide_call : (Instr.call 0x1200).wellFormed = false := by decide
theorem test_wf_refuses_wide_ldI : (Instr.ldI 0xF000).wellFormed = false := by decide
theorem test_wf_refuses_wide_jpV0 : (Instr.jpV0 0x1000).wellFormed = false := by decide
theorem test_wf_refuses_long_sprite : (Instr.drw 0 0 16).wellFormed = false := by decide
theorem test_wf_accepts_bounds : (Instr.jp 0xFFF).wellFormed = true ∧ (Instr.drw 15 15 15).wellFormed = true := by decide

/-! ### Decoding: one word per constructor, written out from its row of 30 R98 and the fields of R91 -/

/-- Rows 1 to 9. -/
theorem test_decode_control :
    decodeWord 0x00E0 = .ok .cls ∧ decodeWord 0x00EE = .ok .ret ∧ decodeWord 0x1A00 = .ok (.jp 0xA00) ∧
    decodeWord 0x2ABC = .ok (.call 0xABC) ∧ decodeWord 0x3A7B = .ok (.seImm 10 0x7B) ∧
    decodeWord 0x4307 = .ok (.sneImm 3 0x07) ∧ decodeWord 0x5120 = .ok (.seReg 1 2) ∧
    decodeWord 0x6A7B = .ok (.ldImm 10 0x7B) ∧ decodeWord 0x7203 = .ok (.addImm 2 0x03) :=
  ⟨rfl, rfl, rfl, rfl, rfl, rfl, rfl, rfl, rfl⟩

/-- Rows 10 to 19. -/
theorem test_decode_alu :
    decodeWord 0x8340 = .ok (.ldReg 3 4) ∧ decodeWord 0x8121 = .ok (.orReg 1 2) ∧
    decodeWord 0x8122 = .ok (.andReg 1 2) ∧ decodeWord 0x8FA3 = .ok (.xorReg 15 10) ∧
    decodeWord 0x8124 = .ok (.addReg 1 2) ∧ decodeWord 0x8125 = .ok (.subReg 1 2) ∧
    decodeWord 0x81F6 = .ok (.shr 1 15) ∧ decodeWord 0x8127 = .ok (.subnReg 1 2) ∧
    decodeWord 0x81FE = .ok (.shl 1 15) ∧ decodeWord 0x9120 = .ok (.sneReg 1 2) :=
  ⟨rfl, rfl, rfl, rfl, rfl, rfl, rfl, rfl, rfl, rfl⟩

/-- Rows 20 to 25. -/
theorem test_decode_index :
    decodeWord 0xA2F0 = .ok (.ldI 0x2F0) ∧ decodeWord 0xB123 = .ok (.jpV0 0x123) ∧
    decodeWord 0xC3A0 = .ok (.rnd 3 0xA0) ∧ decodeWord 0xDAB7 = .ok (.drw 10 11 7) ∧
    decodeWord 0xE19E = .ok (.skp 1) ∧ decodeWord 0xE1A1 = .ok (.sknp 1) :=
  ⟨rfl, rfl, rfl, rfl, rfl, rfl⟩

/-- Rows 26 to 34. -/
theorem test_decode_F :
    decodeWord 0xF307 = .ok (.ldVxDT 3) ∧ decodeWord 0xF30A = .ok (.ldVxK 3) ∧ decodeWord 0xF215 = .ok (.ldDTVx 2) ∧
    decodeWord 0xF318 = .ok (.ldSTVx 3) ∧ decodeWord 0xF21E = .ok (.addI 2) ∧ decodeWord 0xFA29 = .ok (.ldF 10) ∧
    decodeWord 0xF533 = .ok (.ldB 5) ∧ decodeWord 0xF255 = .ok (.storeRegs 2) ∧ decodeWord 0xF465 = .ok (.loadRegs 4) :=
  ⟨rfl, rfl, rfl, rfl, rfl, rfl, rfl, rfl, rfl⟩

/-- T-ERR ERR1 to ERR10, and the words next to a row's fixed bits. -/
theorem test_decode_illegal :
    ([0x0000, 0x00E1, 0x00EF, 0x0123, 0x5121, 0x8128, 0x812F, 0x9121, 0xE100, 0xE19D, 0xE1A2, 0xF100, 0xF075, 0xF00B,
      0xF166].map (decodeTableWord 16)) = List.replicate 15 none := by decide

/-- The encoder against words written out from the table (W14, P2, T-MEM). -/
theorem test_encode_words :
    encode (.call 0x210) = 0x2210 ∧ encode (.drw 0 1 5) = 0xD015 ∧ encode (.ldB 10) = 0xFA33 ∧
    encode (.ldImm 10 0x7B) = 0x6A7B ∧ encode (.shl 1 15) = 0x81FE ∧ encode .ret = 0x00EE := by decide

/-- T-DEC, the rows DAB7 and 2800. -/
theorem test_decoder_record :
    decodeFields 0xDA 0xB7 = { full := 0xDAB7, address := 0x2B7, nnn := 0xAB7, nibble := 7, x := 10, y := 11, immediate := 0xB7 } ∧
    decodeFields 0x28 0x00 = { full := 0x2800, address := 0x000, nnn := 0x800, nibble := 0, x := 8, y := 0, immediate := 0x00 } := by
  decide

/-- The table's numbering: bit 0 is the word's least significant bit; the high byte lies first. -/
theorem test_table_word_bytes : tableWordBytes 16 0x6A7B = [0x6A, 0x7B] ∧ decodeTableWord 16 0x6A7B = some (.ldImm 10 0x7B) := by
  decide

/-! ### One step on a small state -/

/-- What a function reads from the next state, or none. -/
def onNext {α : Type} (o : Host.Outcome State Fault Refusal) (g : State → α) : Option α :=
  match o with
  | .next t => some (g t)
  | .fault _ => none
  | .refused _ => none

/-- The error an outcome is, or none. -/
def errorOf (o : Host.Outcome State Fault Refusal) : Option Fault :=
  match o with
  | .next _ => none
  | .fault e => some e
  | .refused _ => none

/-- One step of the state with the word placed where it fetches. -/
def ran (s : State) (w : Nat) : Host.Outcome State Fault Refusal := step (s.withFetchWord 16 w)

/-- Reset with registers written. -/
def regs (l : List (Reg × Byte)) : State := l.foldl (fun s p => s.setV p.1 p.2) State.reset

/-- A state with I set. -/
def withI (s : State) (w : Word) : State := s.setI w

/-- A state with one byte of memory written. -/
def withByte (s : State) (a : Nat) (b : Byte) : State := { s with mem := Memory.write s.mem a b }

/-- A state with keys pressed. -/
def pressed (s : State) (l : List (Fin 16)) : State := { s with keys := l.foldl (fun k i => k.set i.val true) s.keys }

/-- A state with SP and S[SP] set. -/
def stacked (s : State) (k : Fin 16) (w : Word) : State := { s with sp := k, stack := s.stack.set k.val w }

/-- A host move: no key, draw 0, RD not cleared. -/
def quiet : HostMove := { keys := Vector.replicate 16 false, random := .byte 0, clearsRedraw := false }

/-- A state after whose next cycle the host makes the quiet move. -/
def withQuietHost (s : State) : State := { s with hostMoves := [quiet] }

/-- W8. -/
theorem test_ldImm : onNext (ran State.reset 0x600A) (fun t => (t.v[0], t.pc)) = some (0x0A, 0x202) := by decide +kernel
/-- ALU2: no flag. -/
theorem test_addImm_wraps : onNext (ran (regs [(2, 0xFF)]) 0x7201) (fun t => (t.v[2], t.f)) = some (0x00, 0) := by decide +kernel
/-- ALU4. -/
theorem test_ldReg : onNext (ran (regs [(4, 0x99)]) 0x8340) (fun t => (t.v[3], t.v[4])) = some (0x99, 0x99) := by decide +kernel
/-- ALU5. -/
theorem test_orReg : onNext (ran (regs [(1, 0x0F), (2, 0xF0)]) 0x8121) (fun t => t.v[1]) = some 0xFF := by decide +kernel
/-- ALU6. -/
theorem test_andReg : onNext (ran (regs [(1, 0x3C), (2, 0x0F)]) 0x8122) (fun t => t.v[1]) = some 0x0C := by decide +kernel
/-- ALU7: x = y. -/
theorem test_xorReg_same : onNext (ran (regs [(1, 0xA5)]) 0x8113) (fun t => t.v[1]) = some 0x00 := by decide +kernel
/-- ALU8. -/
theorem test_addReg_carry : onNext (ran (regs [(1, 0xFF), (2, 0x01)]) 0x8124) (fun t => (t.v[1], t.f)) = some (0x00, 1) := by decide +kernel
/-- ALU12: F is not V[F]. -/
theorem test_addReg_VF : onNext (ran (regs [(15, 0xFF), (0, 0x02)]) 0x8F04) (fun t => (t.v[15], t.f)) = some (0x01, 1) := by decide +kernel
/-- ALU15: strictly greater. -/
theorem test_subReg_equal : onNext (ran ((regs [(1, 0x05), (2, 0x05)]).setF 1) 0x8125) (fun t => (t.v[1], t.f)) =
    some (0x00, 0) := by decide +kernel
/-- ALU16. -/
theorem test_subReg_wraps : onNext (ran (regs [(1, 0x00), (2, 0x01)]) 0x8125) (fun t => (t.v[1], t.f)) = some (0xFF, 0) := by decide +kernel
/-- ALU17. -/
theorem test_subnReg : onNext (ran (regs [(1, 0x05), (2, 0x06)]) 0x8127) (fun t => (t.v[1], t.f)) = some (0x01, 1) := by decide +kernel
/-- ALU18. -/
theorem test_subnReg_wraps : onNext (ran (regs [(1, 0x06), (2, 0x05)]) 0x8127) (fun t => (t.v[1], t.f)) = some (0xFF, 0) := by decide +kernel
/-- ALU21: y ignored. -/
theorem test_shr : onNext (ran (regs [(1, 0xFF)]) 0x81F6) (fun t => (t.v[1], t.f)) = some (0x7F, 1) := by decide +kernel
/-- ALU23. -/
theorem test_shl : onNext (ran (regs [(1, 0x81)]) 0x810E) (fun t => (t.v[1], t.f)) = some (0x02, 1) := by decide +kernel
/-- ALU24. -/
theorem test_shl_clears_flag : onNext (ran ((regs [(1, 0x7F)]).setF 1) 0x81FE) (fun t => (t.v[1], t.f)) = some (0xFE, 0) := by decide +kernel
/-- ALU26: no mask. -/
theorem test_rnd : onNext (ran { State.reset with random := .byte 0x5A } 0xC3A0) (fun t => (t.v[3], t.f)) = some (0x5A, 0) := by decide +kernel
/-- ALU28. -/
theorem test_rnd_failure : errorOf (ran { State.reset with random := .failure } 0xC3A0) = some (.randomSourceFailure 0x200) := by decide +kernel

/-- CF1. -/
theorem test_ret_underflow : errorOf (ran State.reset 0x00EE) = some (.stackUnderflow 0x200) := by decide +kernel
/-- CF2. -/
theorem test_ret : onNext (ran (stacked { State.reset with pc := 0x400 } 2 0x350) 0x00EE) (fun t => (t.pc, t.sp)) =
    some (0x352, 1) := by decide +kernel
/-- CF6: a jump, not 00E0. -/
theorem test_jp : onNext (ran State.reset 0x10E0) (fun t => t.pc) = some 0x0E0 := by decide +kernel
/-- CF5. -/
theorem test_jp_eleven_bits : onNext (ran State.reset 0x1FFF) (fun t => t.pc) = some 0x7FF := by decide +kernel
/-- W10. -/
theorem test_call : onNext (ran State.reset 0x2210) (fun t => (t.sp, t.stack[1], t.pc)) = some (1, 0x200, 0x210) := by decide +kernel
/-- CF4. -/
theorem test_call_overflow : errorOf (ran (stacked State.reset 15 0) 0x2000) = some (.stackOverflow 0x200) := by decide +kernel
/-- CF8. -/
theorem test_seImm : onNext (ran State.reset 0x3300) (fun t => t.pc) = some 0x204 := by decide +kernel
/-- CF9. -/
theorem test_seImm_not : onNext (ran { regs [(3, 0x42)] with pc := 0x204 } 0x3343) (fun t => t.pc) = some 0x206 := by decide +kernel
/-- CF10. -/
theorem test_sneImm_not : onNext (ran (regs [(3, 7)]) 0x4307) (fun t => t.pc) = some 0x202 := by decide +kernel
/-- CF11. -/
theorem test_sneImm : onNext (ran { regs [(3, 0x42)] with pc := 0x204 } 0x4300) (fun t => t.pc) = some 0x208 := by decide +kernel
/-- CF12. -/
theorem test_seReg : onNext (ran (regs [(1, 7), (2, 7)]) 0x5120) (fun t => t.pc) = some 0x204 := by decide +kernel
/-- CF14. -/
theorem test_sneReg : onNext (ran (regs [(1, 1), (2, 2)]) 0x9120) (fun t => t.pc) = some 0x202 := by decide +kernel
/-- CF15. -/
theorem test_jpV0_wraps : onNext (ran (regs [(0, 1)]) 0xB0FF) (fun t => t.pc) = some 0x000 := by decide +kernel
/-- CF17. -/
theorem test_jpV0 : onNext (ran (regs [(0, 5)]) 0xB123) (fun t => t.pc) = some 0x028 := by decide +kernel

/-- MEM2. -/
theorem test_ldI_eleven_bits : onNext (ran State.reset 0xA800) (fun t => t.i) = some 0x000 := by decide +kernel
/-- MEM6. -/
theorem test_addI_wraps : onNext (ran (withI (regs [(0, 1)]) 0xFFFF) 0xF01E) (fun t => (t.i, t.f)) = some (0x0000, 0) := by decide +kernel
/-- MEM7. -/
theorem test_ldF_index : onNext (ran (regs [(15, 3)]) 0xFF29) (fun t => t.i) = some 0x04B := by decide +kernel
/-- MEM12. -/
theorem test_ldB : onNext (ran (withI (regs [(5, 123)]) 0x300) 0xF533)
    (fun t => [0x300, 0x301, 0x302, 0x303].map (Memory.read t.mem)) = some [1, 2, 3, 0] := by decide +kernel
/-- MEM15. -/
theorem test_ldB_font : errorOf (ran (withI State.reset 0x04E) 0xF033) = some (.fontWrite 0x04E 0x200) := by decide +kernel
/-- MEM19. -/
theorem test_storeRegs : onNext (ran (withI (regs [(0, 0xAA), (1, 0xBB), (2, 0xCC)]) 0x400) 0xF255)
    (fun t => ([0x400, 0x401, 0x402].map (Memory.read t.mem), t.i)) = some ([0xAA, 0xBB, 0x00], 0x400) := by decide +kernel
/-- MEM21. -/
theorem test_storeRegs_range : errorOf (ran (withI State.reset 0xFF2) 0xFF55) = some (.memoryOutOfRange 0x1000 0x200) := by decide +kernel
/-- MEM26. -/
theorem test_loadRegs : onNext (ran State.reset 0xFF65) (fun t => (t.v[4], t.v[5], t.v[15], t.f)) =
    some (0xF0, 0x20, 0xF0, 0) := by decide +kernel
/-- MEM23. -/
theorem test_loadRegs_range : errorOf (ran (withI State.reset 0xFFF) 0xF165) = some (.memoryOutOfRange 0x1000 0x200) := by decide +kernel

/-- KEY1, CYC3's order: the countdown comes first. -/
theorem test_ldVxDT : onNext (ran { State.reset with dt := 5 } 0xF307) (fun t => (t.v[3], t.dt)) = some (4, 4) := by decide +kernel
/-- KEY4. -/
theorem test_ldDTVx : onNext (ran { State.reset with dt := 9 } 0xF315) (fun t => t.dt) = some 0 := by decide +kernel
/-- KEY5. -/
theorem test_ldSTVx : onNext (ran (regs [(3, 0xFF)]) 0xF318) (fun t => t.st) = some 0xFF := by decide +kernel
/-- KEY8. -/
theorem test_skp : onNext (ran (pressed (regs [(1, 15)]) [15]) 0xE19E) (fun t => t.pc) = some 0x204 := by decide +kernel
/-- KEY11. -/
theorem test_skp_range : errorOf (ran (regs [(1, 0x10)]) 0xE19E) = some (.keyIndexOutOfRange 0x10 0x200) := by decide +kernel
/-- KEY9. -/
theorem test_sknp : onNext (ran (pressed (regs [(1, 15)]) [15]) 0xE1A1) (fun t => t.pc) = some 0x202 := by decide +kernel
/-- KEY12. -/
theorem test_sknp_range : errorOf (ran (regs [(1, 0xFF)]) 0xE1A1) = some (.keyIndexOutOfRange 0xFF 0x200) := by decide +kernel
/-- KEY16. -/
theorem test_ldVxK_highest : onNext (ran (pressed State.reset [3, 9]) 0xF30A) (fun t => (t.v[3], t.pc)) = some (9, 0x202) := by decide +kernel
/-- KEY13. -/
theorem test_ldVxK_waits : onNext (ran { regs [(3, 0x77)] with dt := 2, st := 1 } 0xF30A)
    (fun t => (t.pc, t.v[3], t.dt, t.st, t.cycleCount)) = some (0x200, 0x77, 1, 0, 1) := by decide +kernel

/-- How many pixels are on. -/
def litCount (t : State) : Nat := t.display.toList.countP id

/-- All the listed pixels are on. -/
def lit (t : State) (l : List (Fin 64 × Fin 32)) : Bool := l.all fun p => Display.pix t.display p.1 p.2

/-- DSP2. -/
theorem test_cls : onNext (ran { withQuietHost State.reset with display := Display.setPix State.reset.display 63 31 true } 0x00E0)
    (fun t => (litCount t, t.rd, t.pc)) = some (0, true, 0x202) := by decide +kernel
/-- DSP12: glyph 0. -/
theorem test_drw_glyph : onNext (ran State.reset 0xD015) (fun t => (litCount t, lit t [(0, 0), (1, 0), (2, 0), (3, 0),
      (0, 1), (3, 1), (0, 2), (3, 2), (0, 3), (3, 3), (0, 4), (1, 4), (2, 4), (3, 4)], t.f)) = some (14, true, 0) := by
  decide +kernel
/-- DSP3: the column wraps. -/
theorem test_drw_wraps : onNext (ran (withQuietHost (withByte (withI (regs [(1, 63)]) 0x300) 0x300 0xC0)) 0xD121)
    (fun t => (litCount t, lit t [(63, 0), (0, 0)], t.f, t.rd)) = some (2, true, 0, true) := by decide +kernel
/-- DSP10: the collision; bit 0 is the rightmost column. -/
theorem test_drw_collision : onNext (ran { withByte (withI State.reset 0x300) 0x300 0x01 with
      display := Display.setPix State.reset.display 7 0 true } 0xD011) (fun t => (litCount t, t.f)) = some (0, 1) := by
  decide +kernel

/-- CYC1, CYC7. -/
theorem test_timers_and_count : onNext (ran { State.reset with dt := 5, cycleCount := 7 } 0x6000)
    (fun t => (t.dt, t.st, t.cycleCount)) = some (4, 0, 8) := by decide +kernel
/-- CYC4: a fetch at 0xFFE is legal. -/
theorem test_fetch_last : onNext (ran { State.reset with pc := 0xFFE } 0x1200) (fun t => t.pc) = some 0x200 := by decide +kernel
/-- ERR12: the fetch comes first. -/
theorem test_fetch_range : errorOf (step (stacked { State.reset with pc := 0xFFF } 15 0)) = some (.fetchOutOfRange 0xFFF) := by decide +kernel
/-- ERR1: with nothing placed, the first step after reset. -/
theorem test_unknown : errorOf (step State.reset) = some (.unknownOpcode 0x0000 0x200) := by decide +kernel
/-- The labels of 60 R301. -/
theorem test_fault_codes : faultCode (.unknownOpcode 0 0) = 1 ∧ faultCode (.fontWrite 0 0) = 8 ∧ faultCode .imageReadFailure = 17 := by decide +kernel
/-- W12: 3585 bytes fail. -/
theorem test_load_too_large : errorOf (load (some (List.replicate 3585 0)) State.reset) = some (.imageTooLarge 3585) := by
  decide +kernel
/-- A written byte equal to what its address reads as unlisted leaves no cell. -/
theorem test_write_removes : Memory.write (Memory.write [] 0x300 5) 0x300 0 = [] := by decide +kernel

/-! ### Witnesses: states and operands that meet an obligation's hypotheses together -/

/-- Reset with a word at PC. -/
def holding (w : Nat) : State := State.reset.withFetchWord 16 w

/-- The word of `holding` is what the next cycle runs. -/
theorem holding_runs_ldImm : (holding 0x600A).runsNext (.ldImm 0 0x0A) := ⟨by unfold State.fetchesInRange; decide +kernel, rfl⟩

/-- At the bounds of jp and drw, and an instruction with no operand. -/
theorem witness_DecodeUndoesEncode : (Instr.jp 0xFFF).wellFormed = true ∧ (Instr.drw 15 15 15).wellFormed = true ∧
    Instr.cls.wellFormed = true := by decide

theorem witness_EncodeUndoesDecode : decodeWord 0xFF65 = .ok (.loadRegs 15) ∧ decodeWord 0x00E0 = .ok .cls := ⟨rfl, rfl⟩

theorem witness_DispatchRowsAreExclusive : (∃ r ∈ rows, r.hits 0x8124 = true) ∧ rows.reverse.Perm rows :=
  ⟨⟨_, List.mem_of_getElem? (i := 13) rfl, rfl⟩, List.reverse_perm rows⟩

/-- Each row's clause has a word, and each pair of operands differs in an ignored bit alone. -/
theorem witness_IgnoredFieldsHaveNoEffect : (0x1A00 : Word) &&& 0xF000 = 0x1000 ∧ (0x2FFF : Word) &&& 0xF000 = 0x2000 ∧
    (0xAFFF : Word) &&& 0xF000 = 0xA000 ∧ (0xBFFF : Word) &&& 0xF000 = 0xB000 ∧ (0xC3A0 : Word) &&& 0xF000 = 0xC000 ∧
    (0x81F6 : Word) &&& 0xF00F = 0x8006 ∧ (0x81FE : Word) &&& 0xF00F = 0x800E ∧ (0x9120 : Word) &&& 0xF00F = 0x9000 ∧
    (0xA00 : Word).toNat % 0x800 = (0x200 : Word).toNat % 0x800 ∧ (0xF23 : Word).toNat % 0x100 = (0x023 : Word).toNat % 0x100 := by
  decide

/-- At PC = 0x200, and at the last PC whose fetch is in range. -/
theorem witness_StepRunsTheDecodedInstruction :
    ((holding 0x600A).pc.toNat + 1 ≤ 0xFFF ∧ decode (Memory.read (holding 0x600A).mem (holding 0x600A).pc.toNat)
      (Memory.read (holding 0x600A).mem ((holding 0x600A).pc.toNat + 1)) = .ok (.ldImm 0 0x0A)) ∧
    ({ State.reset with pc := 0xFFE } : State).pc.toNat + 1 ≤ 0xFFF :=
  ⟨⟨by decide +kernel, rfl⟩, by decide⟩

theorem witness_HostTurnWritesOnlyItsInputs : (withQuietHost State.reset).hostMoves = quiet :: [] ∧ State.reset.hostMoves = [] :=
  ⟨rfl, rfl⟩

theorem witness_FetchOutOfRangeEndsTheRun : 0xFFF ≤ ({ State.reset with pc := 0xFFF } : State).pc.toNat ∧
    0xFFF ≤ ({ State.reset with pc := 0xFFFF } : State).pc.toNat := by decide

/-- Reset itself: its word is 0x0000. -/
theorem witness_UnknownOpcodeEndsTheRun : State.reset.fetchesInRange ∧
    ∀ r ∈ rows, State.reset.wordAtPC &&& r.mask ≠ r.pattern :=
  ⟨by unfold State.fetchesInRange; decide, by decide +kernel⟩

/-- One error of every kind. -/
theorem witness_EveryErrorIsTheRunningInstructions :
    errorOf (step { State.reset with pc := 0xFFF }) = some (.fetchOutOfRange 0xFFF) ∧
    errorOf (step State.reset) = some (.unknownOpcode 0 0x200) ∧
    errorOf (ran (stacked State.reset 15 0) 0x2000) = some (.stackOverflow 0x200) ∧
    errorOf (ran State.reset 0x00EE) = some (.stackUnderflow 0x200) ∧
    errorOf (ran { State.reset with random := .failure } 0xC3A0) = some (.randomSourceFailure 0x200) ∧
    errorOf (ran (regs [(1, 16)]) 0xE19E) = some (.keyIndexOutOfRange 16 0x200) ∧
    errorOf (ran (withI State.reset 0xFFF) 0xD012) = some (.memoryOutOfRange 0x1000 0x200) ∧
    errorOf (ran (withI State.reset 0x04F) 0xF155) = some (.fontWrite 0x04F 0x200) := by decide +kernel

/-- A timer load, and an instruction that loads none. -/
theorem witness_TimersCountDownOncePerCycle :
    ((holding 0xF215).runsNext (.ldDTVx 2) ∧ ∃ t, step (holding 0xF215) = .next t) ∧
    ((holding 0xF318).runsNext (.ldSTVx 3) ∧ ∃ t, step (holding 0xF318) = .next t) ∧
    ((holding 0x600A).runsNext (.ldImm 0 0x0A) ∧ ∃ t, step (holding 0x600A) = .next t) := by
  have h1 : (holding 0xF215).runsNext (.ldDTVx 2) := ⟨by unfold State.fetchesInRange; decide +kernel, rfl⟩
  have h2 : (holding 0xF318).runsNext (.ldSTVx 3) := ⟨by unfold State.fetchesInRange; decide +kernel, rfl⟩
  exact ⟨⟨h1, _, step_of_runsNext h1⟩, ⟨h2, _, step_of_runsNext h2⟩, holding_runs_ldImm, _, step_of_runsNext holding_runs_ldImm⟩

theorem witness_EveryCompletedCycleIsCounted : ∃ t, step (holding 0x600A) = .next t :=
  ⟨_, step_of_runsNext holding_runs_ldImm⟩

/-- A skip taken, a jump, a return, a wait: the clauses of the table that are not the plain advance. -/
theorem witness_NextPCTable : (∃ t, exec (.seImm 0 0) State.reset = .next t) ∧ (∃ t, exec (.jp 0xFFF) State.reset = .next t) ∧
    (∃ t, exec .ret (stacked State.reset 1 0xFFE) = .next t) ∧ (∃ t, exec (.skp 0) State.reset = .next t) ∧
    (∃ t, exec (.ldVxK 0) State.reset = .next t) ∧ (∃ t, exec (.ldImm 0 1) State.reset = .next t) := by
  refine ⟨⟨_, rfl⟩, ⟨_, rfl⟩, ⟨_, (exec_ret_next _ _).mpr ⟨by decide +kernel, rfl⟩⟩,
    ⟨_, (exec_skp_next _ _ _).mpr ⟨0, by decide +kernel, rfl⟩⟩,
    ⟨_, (exec_ldVxK_next _ _ _).mpr (.inr ⟨(State.scanKeys_eq_none _).mpr (by decide +kernel), rfl⟩)⟩, ⟨_, rfl⟩⟩

theorem witness_GeneralRegisterFrame : (∃ t, exec (.loadRegs 3) State.reset = .next t) ∧ writesReg (.loadRegs 3) 4 = false ∧
    writesReg (.loadRegs 3) 3 = true :=
  ⟨⟨_, (exec_loadRegs_next _ _ _).mpr ⟨by decide +kernel, rfl⟩⟩, by decide, by decide⟩

theorem witness_FlagFrame : (∃ t, exec (.addImm 0 1) State.reset = .next t) ∧ writesFlag (.addImm 0 1) = false ∧
    ∃ t, exec (.drw 0 0 15) State.reset = .next t :=
  ⟨⟨_, rfl⟩, rfl, _, (exec_drw_next _ _ _ _ _).mpr ⟨by decide +kernel, rfl⟩⟩

/-- Fx33 at 0x300: the bytes just outside are 0x2FF and 0x303. -/
theorem witness_MemoryFrame : (∃ t, exec (.ldB 0) (withI State.reset 0x300) = .next t) ∧
    0x2FF < (withI State.reset 0x300).i.toNat ∧ (withI State.reset 0x300).i.toNat + storedBytes (.ldB 0) ≤ 0x303 :=
  ⟨⟨_, (exec_ldB_next _ _ _).mpr ⟨by decide +kernel, rfl⟩⟩, by decide +kernel, by decide +kernel⟩

theorem witness_RedrawIsSetByDrawAndClear : (∃ t, exec .cls State.reset = .next t) ∧
    (∃ t, exec (.drw 0 0 0) (withI State.reset 0xFFFF) = .next t) ∧ ∃ t, exec (.ldImm 0 1) State.reset = .next t :=
  ⟨⟨_, rfl⟩, ⟨_, (exec_drw_next _ _ _ _ _).mpr ⟨by decide +kernel, rfl⟩⟩, _, rfl⟩

/-- A call at SP = 14, a return at SP = 1, and an instruction that is neither. -/
theorem witness_StackFrame : (∃ t, exec (.call 0x210) (stacked State.reset 14 0x200) = .next t) ∧
    (∃ t, exec .ret (stacked State.reset 1 0x200) = .next t) ∧ ∃ t, exec (.jp 0) State.reset = .next t :=
  ⟨⟨_, (exec_call_next _ _ _).mpr ⟨by decide +kernel, rfl⟩⟩, ⟨_, (exec_ret_next _ _).mpr ⟨by decide +kernel, rfl⟩⟩, _, rfl⟩

theorem witness_SpecialRegisterFrame : (∃ t, exec (.ldI 0x2F0) State.reset = .next t) ∧
    (∃ t, exec (.ldDTVx 0) State.reset = .next t) ∧ (∃ t, exec (.ldSTVx 0) State.reset = .next t) ∧
    ∃ t, exec (.addReg 1 2) State.reset = .next t := ⟨⟨_, rfl⟩, ⟨_, rfl⟩, ⟨_, rfl⟩, _, rfl⟩

/-- The zero INIT, and one whose F is 1 with a byte of memory written. -/
theorem witness_ConstructionMeetsTheInvariant : (Memory.wf Init.zero.mem = true ∧ Init.zero.f = 0) ∧
    Memory.wf [(0xFFF, 0x42)] = true ∧ ({ Init.zero with f := 1 } : Init).f = 1 := ⟨⟨rfl, rfl⟩, by decide, rfl⟩

/-- A state that meets the invariant: reset with an instruction placed. -/
theorem holding_inv : (holding 0x600A).Inv :=
  ⟨by unfold State.MemCanonical; decide +kernel, .inl rfl, by unfold State.PcDoesNotWrap; decide +kernel,
    by unfold State.LiveStackInRange; decide +kernel⟩

theorem witness_EveryStepKeepsTheInvariant : (holding 0x600A).Inv ∧ ∃ t, step (holding 0x600A) = .next t :=
  ⟨holding_inv, _, step_of_runsNext holding_runs_ldImm⟩

/-- A run of one step, and the last byte of the font. -/
theorem witness_NoRunChangesTheFont : (∃ t, stepsTo 1 (holding 0x600A) t) ∧ 0x4F < 0x50 :=
  ⟨⟨_, _, step_of_runsNext holding_runs_ldImm, rfl⟩, by decide⟩

/-- Two different states with the same view. -/
theorem witness_NoProgramObservesFlagSoundOrRedraw :
    (State.reset.setF 1).programView = (State.reset.setST 9).programView ∧ (State.reset.setF 1).f ≠ (State.reset.setST 9).f :=
  ⟨rfl, by decide +kernel⟩

/-- 3584 and 3585 bytes, and the image's last byte. -/
theorem witness_LoaderWritesTheImage : (List.replicate 3584 (0x12 : Byte)).length ≤ 3584 ∧
    3584 < (List.replicate 3585 (0x12 : Byte)).length ∧ 3583 < (List.replicate 3584 (0x12 : Byte)).length := by
  simp only [List.length_replicate]
  omega

/-- The display is blank right after reset. -/
theorem reset_blank : ∀ c r, Display.pix State.reset.display c r = false := fun _ _ => Vector.getElem_replicate _

/-- No row at I = 0xFFFF, fifteen rows that end at 0xFFF, and a range error. -/
theorem witness_DrawInvertsTheSpritesPixels : ((withI State.reset 0xFFFF).i.toNat = 0xFFFF ∧ (0 : Nat) < 16) ∧
    (withI State.reset 0xFF1).i.toNat + 15 ≤ 0x1000 ∧ 0x1000 < (withI State.reset 0xFF2).i.toNat + 15 ∧
    spriteCovers State.reset 0 0 5 0 0 = true ∧ spriteCovers State.reset 0 0 5 4 0 = false := by decide +kernel

/-- A collision and none: a lit pixel under a set bit, and the blank display. -/
theorem witness_draw_collision :
    (∃ c r, spriteCovers State.reset 0 0 5 c r = true ∧
      Display.pix (Display.setPix State.reset.display 0 0 true) c r = true) ∧
    ∀ c r, Display.pix State.reset.display c r = false :=
  ⟨⟨0, 0, by decide +kernel, Display.pix_setPix_same _ _ _ _⟩, reset_blank⟩

/-- A blank display and a glyph with a set bit. -/
theorem witness_DrawingTwiceGivesTheDisplayBack : State.reset.i.toNat + 5 ≤ 0x1000 ∧
    (∀ c r, Display.pix State.reset.display c r = false) ∧ ∃ c r, spriteCovers State.reset 0 0 5 c r = true :=
  ⟨by decide, reset_blank, 0, 0, by decide +kernel⟩

theorem witness_ReturnPopsThenAdvances : (stacked State.reset 1 0x200).sp ≠ 0 ∧ (stacked State.reset 15 0x200).sp ≠ 0 ∧
    State.reset.sp = 0 := by decide +kernel

/-- SP = 0 and 14 push, SP = 15 overflows. -/
theorem witness_CallPushesItsOwnAddress : (1 : Fin 16).val = State.reset.sp.val + 1 ∧
    (15 : Fin 16).val = (stacked State.reset 14 0).sp.val + 1 ∧ (stacked State.reset 15 0).sp.val = 15 := by decide +kernel

/-- 2210 at 0x200 and 00EE at 0x210. -/
def callState : State := withByte (holding 0x2210) 0x211 0xEE

theorem callState_runs : callState.runsNext (.call 0x210) := ⟨by unfold State.fetchesInRange; decide +kernel, rfl⟩

/-- What the call leaves, before the cycle is counted and the host has its turn. -/
def afterCall : State := callState.tickTimers.push.setPC 0x210

/-- The call completes, and the word it jumps to is the return. -/
theorem witness_CallThenReturnResumesAfterTheCall : callState.runsNext (.call 0x210) ∧ callState.sp.val < 15 ∧
    step callState = .next afterCall.countCycle.hostTurn ∧ afterCall.countCycle.hostTurn.runsNext .ret := by
  refine ⟨callState_runs, by decide +kernel, ?_, ?_, ?_⟩
  · exact step_eq_next.mpr ⟨_, _, callState_runs, (exec_call_next _ _ _).mpr ⟨by decide +kernel, rfl⟩, rfl⟩
  · unfold State.fetchesInRange
    rw [State.hostTurn_pc]
    decide +kernel
  · unfold State.wordAtPC
    rw [State.hostTurn_pc, State.hostTurn_mem]
    rfl

theorem witness_RandomByteIsTheDrawUnmasked : State.reset.random = .byte 0 ∧
    ({ State.reset with random := .failure } : State).random = .failure := ⟨rfl, rfl⟩

/-- The first and the last I that may be written, and the first one past each bound. -/
theorem witness_DecimalDigitsAreStoredAtI : (0x50 ≤ (withI State.reset 0x50).i.toNat ∧ (withI State.reset 0xFFD).i.toNat + 2 ≤ 0xFFF) ∧
    0xFFF < (withI State.reset 0xFFE).i.toNat + 2 ∧ (withI State.reset 0x4F).i.toNat < 0x50 := by decide +kernel

/-- x = 0 with any I; x = 15 up to 0xFFF; one past it; and the last byte of the font. -/
theorem witness_StoreRegistersExcludesX : (0 : Reg).val = 0 ∧
    (0x50 ≤ (withI State.reset 0xFF1).i.toNat ∧ (withI State.reset 0xFF1).i.toNat + (15 : Reg).val ≤ 0x1000) ∧
    0x1000 < (withI State.reset 0xFF2).i.toNat + (15 : Reg).val ∧ (withI State.reset 0x4F).i.toNat < 0x50 ∧
    (14 : Reg) < 15 := by decide +kernel

/-- x = 0 at 0xFFF, x = 1 at 0xFFF, and x = 15 up to 0xFFF. -/
theorem witness_LoadRegistersIncludesX : (withI State.reset 0xFFF).i.toNat + (0 : Reg).val ≤ 0xFFF ∧
    (withI State.reset 0xFF0).i.toNat + (15 : Reg).val ≤ 0xFFF ∧ 0xFFF < (withI State.reset 0xFFF).i.toNat + (1 : Reg).val := by
  decide +kernel

/-- One step of an Fx55 and of an Fx33 that completes, with I where the test puts it. -/
def storing (w : Nat) (i : Word) : State := withI (holding w) i

theorem storing_runs {w : Nat} {j : Instr} (i : Word) (h : (holding w).runsNext j) : (storing w i).runsNext j := by
  simpa [State.runsNext, State.fetchesInRange, State.wordAtPC, storing, withI] using h

theorem storing_mayWrite (w : Nat) {i : Word} {n : Nat} (h : 0x50 ≤ i.toNat ∧ i.toNat + n ≤ 0x1000) :
    (storing w i).tickTimers.writeError n = none :=
  (State.writeError_eq_none _ n).mpr (.inr (by simpa [storing, withI] using h))

theorem holding_runs_storeRegs : (holding 0xF255).runsNext (.storeRegs 2) :=
  ⟨by unfold State.fetchesInRange; decide +kernel, rfl⟩

theorem holding_runs_ldB : (holding 0xF533).runsNext (.ldB 5) := ⟨by unfold State.fetchesInRange; decide +kernel, rfl⟩

/-- Fx55 with x = 2 at I = PC + 2 (both bytes reached), at PC + 3 and at PC + 1 (one reached), and at PC + 4 (none). -/
theorem witness_NextFetchSeesTheStore_Fx55 : ∀ i ∈ ([0x201, 0x202, 0x203, 0x204] : List Word),
    (storing 0xF255 i).runsNext (.storeRegs 2) ∧ ∃ t, step (storing 0xF255 i) = .next t := by
  intro i hi
  have hb : ∀ i ∈ ([0x201, 0x202, 0x203, 0x204] : List Word), 0x50 ≤ i.toNat ∧ i.toNat + (2 : Reg).val ≤ 0x1000 := by
    simp
  have hr := storing_runs i holding_runs_storeRegs
  exact ⟨hr, _, step_eq_next.mpr ⟨_, _, hr, (exec_storeRegs_next _ _ _).mpr ⟨storing_mayWrite _ (hb i hi), rfl⟩, rfl⟩⟩

/-- Fx33 at every I from PC − 1 (no byte reached) to PC + 4 (none again). -/
theorem witness_NextFetchSeesTheStore_Fx33 : ∀ i ∈ ([0x1FF, 0x200, 0x201, 0x202, 0x203, 0x204] : List Word),
    (storing 0xF533 i).runsNext (.ldB 5) ∧ ∃ t, step (storing 0xF533 i) = .next t := by
  intro i hi
  have hb : ∀ i ∈ ([0x1FF, 0x200, 0x201, 0x202, 0x203, 0x204] : List Word), 0x50 ≤ i.toNat ∧ i.toNat + 3 ≤ 0x1000 := by
    simp
  have hr := storing_runs i holding_runs_ldB
  exact ⟨hr, _, step_eq_next.mpr ⟨_, _, hr, (exec_ldB_next _ _ _).mpr ⟨storing_mayWrite _ (hb i hi), rfl⟩, rfl⟩⟩

/-- The store's own effect, at I = PC + 2, and the bound on PC. -/
theorem witness_NextFetchSeesTheStore : (∃ t, exec (.storeRegs 2) (withI State.reset 0x202) = .next t) ∧ 2 ≤ (2 : Reg).val ∧
    (withI State.reset 0x202).i.toNat = (withI State.reset 0x202).pc.toNat + 2 ∧ State.reset.pc.toNat + 3 ≤ 0xFFF ∧
    ({ State.reset with pc := 0xFFC } : State).pc.toNat + 3 ≤ 0xFFF :=
  ⟨⟨_, (exec_storeRegs_next _ _ _).mpr ⟨by decide +kernel, rfl⟩⟩, by decide, by decide +kernel, by decide, by decide⟩

/-- P6, R71: the next fetch sees the two registers just stored; and Fx33's digits 1, 2 of 123 at PC + 2. -/
theorem test_next_fetch_sees_store :
    onNext (ran (withI (regs [(0, 0x73), (1, 0x01)]) 0x202) 0xF255) (fun t => t.wordAtPC) = some 0x7301 ∧
    onNext (ran (withI (regs [(5, 123)]) 0x202) 0xF533) (fun t => t.wordAtPC) = some 0x0102 := by decide +kernel

/-- A completed step of Fx07, and of Fx15 and Fx18 (`witness_TimersCountDownOncePerCycle`). -/
theorem witness_TimerReadsAndLoads : ((holding 0xF307).runsNext (.ldVxDT 3) ∧ ∃ t, step (holding 0xF307) = .next t) ∧
    ((holding 0xF215).runsNext (.ldDTVx 2) ∧ ∃ t, step (holding 0xF215) = .next t) ∧
    ((holding 0xF318).runsNext (.ldSTVx 3) ∧ ∃ t, step (holding 0xF318) = .next t) := by
  have h : (holding 0xF307).runsNext (.ldVxDT 3) := ⟨by unfold State.fetchesInRange; decide +kernel, rfl⟩
  exact ⟨⟨h, _, step_of_runsNext h⟩, witness_TimersCountDownOncePerCycle.1, witness_TimersCountDownOncePerCycle.2.1⟩

/-- The largest key, pressed and not, and the smallest value that names none. -/
theorem witness_KeySkipsTestTheNamedKey : (regs [(1, 15)]).v[1].toNat = (15 : Fin 16).val ∧ 16 ≤ (regs [(1, 16)]).v[1].toNat ∧
    (pressed State.reset [15]).keys[15] = true ∧ State.reset.keys[15] = false := by decide +kernel

/-- Keys 0 and 15 pressed, key 0 alone, and none. -/
theorem witness_KeyWaitTakesTheHighestKey :
    ((pressed State.reset [0, 15]).keys[15] = true ∧ ∀ j : Fin 16, 15 < j → (pressed State.reset [0, 15]).keys[j.val] = false) ∧
    ((pressed State.reset [0]).keys[0] = true ∧ ∀ j : Fin 16, 0 < j → (pressed State.reset [0]).keys[j.val] = false) ∧
    ∀ j : Fin 16, State.reset.keys[j.val] = false := by decide +kernel

/-- A host move that presses key 5. -/
def presses5 : HostMove := { quiet with keys := quiet.keys.set 5 true }

/-- A wait with two quiet moves scripted and then one that presses a key: for k = 0 and for k = 2, the last k it allows. -/
theorem witness_KeyWaitLastsWhileNoKeyIsPressed :
    ({ holding 0xF30A with hostMoves := [quiet, quiet, presses5] } : State).runsNext (.ldVxK 3) ∧
    (∀ j : Fin 16, (holding 0xF30A).keys[j.val] = false) ∧ 2 ≤ [quiet, quiet, presses5].length ∧
    (∀ h ∈ [quiet, quiet, presses5].take 0, ∀ j : Fin 16, h.keys[j.val] = false) ∧
    (∀ h ∈ [quiet, quiet, presses5].take 2, ∀ j : Fin 16, h.keys[j.val] = false) ∧
    ¬ ∀ h ∈ [quiet, quiet, presses5].take 3, ∀ j : Fin 16, h.keys[j.val] = false :=
  ⟨⟨by unfold State.fetchesInRange; decide +kernel, rfl⟩, by decide +kernel, by decide, by decide +kernel, by decide +kernel,
    by decide +kernel⟩

/-- Every row has a word that matches it, its pattern: what `rowDecodes` assumes of a word. -/
theorem witness_rowDecodes : ∀ r ∈ rows, r.pattern &&& r.mask = r.pattern := by decide

end Sys2Proof.Tests
end

section
/-! PROOFS. What one instruction can do to the state, said once: an inversion of `exec` that groups the 34 instructions
by what they write (10_state.md R20). -/

namespace Sys2Proof.Machine

/-- What a completed instruction leaves: one case per set of fields written, each with the part of the instruction's own
meaning that frame and invariant proofs need. -/
inductive ExecEffect (i : Instr) (s : State) : State → Prop where
  /-- Jumps, skips, 9xy0 and a waiting Fx0A write PC alone: at most one word is skipped, or the target has 11 bits. -/
  | pcOnly (w : Word) (hw : w.toNat ≤ s.pc.toNat + 4 ∨ w.toNat < 0x800) : ExecEffect i s (s.setPC w)
  | register (x : Reg) (b : Byte) (hx : writesReg i x = true) : ExecEffect i s (s.setV x b).autoAdvance
  | flagged (x : Reg) (b f : Byte) (hx : writesReg i x = true) (hi : writesFlag i = true) (hd : ∀ x y n, i ≠ .drw x y n)
      (hf : f = 0 ∨ f = 1) : ExecEffect i s ((s.setF f).setV x b).autoAdvance
  | index (w : Word) (hi : (∃ nnn, i = .ldI nnn) ∨ (∃ x, i = .addI x) ∨ ∃ x, i = .ldF x) :
      ExecEffect i s (s.setI w).autoAdvance
  | delayTimer (x : Reg) (hi : i = .ldDTVx x) : ExecEffect i s (s.setDT (s.readV x)).autoAdvance
  | soundTimer (x : Reg) (hi : i = .ldSTVx x) : ExecEffect i s (s.setST (s.readV x)).autoAdvance
  | store (bs : List Byte) (hl : bs.length = storedBytes i) (hw : s.writeError bs.length = none) :
      ExecEffect i s (s.storeAtI bs).autoAdvance
  | load (x : Reg) (hi : i = .loadRegs x) : ExecEffect i s (s.loadFromI x).autoAdvance
  | clear (hi : i = .cls) : ExecEffect i s s.clearDisplay.requestRedraw.autoAdvance
  | draw (x y : Reg) (n : Nat) (hi : i = .drw x y n) : ExecEffect i s
      (s.drawSprite (startColumn (s.readV x)) (startRow (s.readV y)) n).requestRedraw.autoAdvance
  | ret (hi : i = .ret) (hs : s.sp ≠ 0) : ExecEffect i s s.pop.autoAdvance
  | call (nnn : Word) (hi : i = .call nnn) (hs : s.sp ≠ 15) : ExecEffect i s (s.push.setPC (address11 nnn))

/-! ### Bounds on PC -/

theorem address11_lt (nnn : Word) : (address11 nnn).toNat < 0x800 := by
  rw [address11_toNat]
  omega

theorem v0Target_lt (b : Byte) (nnn : Word) : (v0Target b nnn).toNat < 0x100 := by
  rw [v0Target_eq, BitVec.toNat_ofNat]
  omega

theorem autoAdvance_effect (i : Instr) (s : State) : ExecEffect i s s.autoAdvance :=
  .pcOnly (s.pc + 2) (.inl (by bv_omega))

/-- A skip passes over at most one word (40 R125, R126). -/
theorem skip_effect (i : Instr) (s : State) (taken : Bool) : ExecEffect i s (s.skipIf taken).autoAdvance := by
  cases taken with
  | false => exact autoAdvance_effect i s
  | true => exact .pcOnly (s.pc + 2 + 2) (.inl (by bv_omega))

theorem greaterFlag_isBit (a b : Byte) : greaterFlag a b = 0 ∨ greaterFlag a b = 1 := flagOf_isBit _

theorem carryFlag_isBit (a b : Byte) : carryFlag a b = 0 ∨ carryFlag a b = 1 := flagOf_isBit _

theorem highBitFlag_isBit (a : Byte) : highBitFlag a = 0 ∨ highBitFlag a = 1 := flagOf_isBit _

/-- INVERSION: an instruction that completes has one of these effects. -/
theorem exec_effect {i : Instr} {s t : State} (h : exec i s = .next t) : ExecEffect i s t := by
  cases i with
  | cls => obtain rfl := (exec_cls_next s t).mp h; exact .clear rfl
  | ret => obtain ⟨hs, rfl⟩ := (exec_ret_next s t).mp h; exact .ret rfl hs
  | jp nnn => obtain rfl := (exec_jp_next s t nnn).mp h; exact .pcOnly _ (.inr (address11_lt nnn))
  | call nnn => obtain ⟨hs, rfl⟩ := (exec_call_next s t nnn).mp h; exact .call nnn rfl hs
  | seImm x kk => obtain rfl := (exec_seImm_next s t x kk).mp h; exact skip_effect _ s _
  | sneImm x kk => obtain rfl := (exec_sneImm_next s t x kk).mp h; exact skip_effect _ s _
  | seReg x y => obtain rfl := (exec_seReg_next s t x y).mp h; exact skip_effect _ s _
  | ldImm x kk => obtain rfl := (exec_ldImm_next s t x kk).mp h; exact .register x _ (beq_self_eq_true x)
  | addImm x kk => obtain rfl := (exec_addImm_next s t x kk).mp h; exact .register x _ (beq_self_eq_true x)
  | ldReg x y => obtain rfl := (exec_ldReg_next s t x y).mp h; exact .register x _ (beq_self_eq_true x)
  | orReg x y => obtain rfl := (exec_orReg_next s t x y).mp h; exact .register x _ (beq_self_eq_true x)
  | andReg x y => obtain rfl := (exec_andReg_next s t x y).mp h; exact .register x _ (beq_self_eq_true x)
  | xorReg x y => obtain rfl := (exec_xorReg_next s t x y).mp h; exact .register x _ (beq_self_eq_true x)
  | addReg x y =>
    obtain rfl := (exec_addReg_next s t x y).mp h
    exact .flagged x _ _ (beq_self_eq_true x) rfl nofun (carryFlag_isBit _ _)
  | subReg x y =>
    obtain rfl := (exec_subReg_next s t x y).mp h
    exact .flagged x _ _ (beq_self_eq_true x) rfl nofun (greaterFlag_isBit _ _)
  | shr x y =>
    obtain rfl := (exec_shr_next s t x y).mp h
    exact .flagged x _ _ (beq_self_eq_true x) rfl nofun (lowBitFlag_isBit _)
  | subnReg x y =>
    obtain rfl := (exec_subnReg_next s t x y).mp h
    exact .flagged x _ _ (beq_self_eq_true x) rfl nofun (greaterFlag_isBit _ _)
  | shl x y =>
    obtain rfl := (exec_shl_next s t x y).mp h
    exact .flagged x _ _ (beq_self_eq_true x) rfl nofun (highBitFlag_isBit _)
  | sneReg x y => obtain rfl := (exec_sneReg_next s t x y).mp h; exact autoAdvance_effect _ s
  | ldI nnn => obtain rfl := (exec_ldI_next s t nnn).mp h; exact .index _ (.inl ⟨nnn, rfl⟩)
  | jpV0 nnn =>
    obtain rfl := (exec_jpV0_next s t nnn).mp h
    exact .pcOnly _ (.inr ((v0Target_lt _ nnn).trans (by decide)))
  | rnd x kk => obtain ⟨b, _, rfl⟩ := (exec_rnd_next s t x kk).mp h; exact .register x b (beq_self_eq_true x)
  | drw x y n => obtain ⟨_, rfl⟩ := (exec_drw_next s t x y n).mp h; exact .draw x y n rfl
  | skp x => obtain ⟨k, _, rfl⟩ := (exec_skp_next s t x).mp h; exact skip_effect _ s _
  | sknp x => obtain ⟨k, _, rfl⟩ := (exec_sknp_next s t x).mp h; exact skip_effect _ s _
  | ldVxDT x => obtain rfl := (exec_ldVxDT_next s t x).mp h; exact .register x _ (beq_self_eq_true x)
  | ldVxK x =>
    obtain ⟨k, _, rfl⟩ | ⟨_, rfl⟩ := (exec_ldVxK_next s t x).mp h
    · exact .register x _ (beq_self_eq_true x)
    · exact .pcOnly t.pc (.inl (Nat.le_add_right _ 4))
  | ldDTVx x => obtain rfl := (exec_ldDTVx_next s t x).mp h; exact .delayTimer x rfl
  | ldSTVx x => obtain rfl := (exec_ldSTVx_next s t x).mp h; exact .soundTimer x rfl
  | addI x => obtain rfl := (exec_addI_next s t x).mp h; exact .index _ (.inr (.inl ⟨x, rfl⟩))
  | ldF x => obtain rfl := (exec_ldF_next s t x).mp h; exact .index _ (.inr (.inr ⟨x, rfl⟩))
  | ldB x => obtain ⟨hw, rfl⟩ := (exec_ldB_next s t x).mp h; exact .store _ rfl hw
  | storeRegs x =>
    obtain ⟨hw, rfl⟩ := (exec_storeRegs_next s t x).mp h
    exact .store _ (s.registersBelow_length x) (by rwa [State.registersBelow_length])
  | loadRegs x => obtain ⟨_, rfl⟩ := (exec_loadRegs_next s t x).mp h; exact .load x rfl

end Sys2Proof.Machine
end

section
/-! PROOFS. The frame of 10_state.md R20, from the inversion `exec_effect`. -/

namespace Sys2Proof.Machine

/-! ### V[0] to V[15] -/

theorem ne_of_writesReg {i : Instr} {k x : Reg} (hk : writesReg i k = false) (hx : writesReg i x = true) : k ≠ x := by
  rintro rfl
  simp [hk] at hx

theorem ExecEffect.readV_eq {i : Instr} {s t : State} (e : ExecEffect i s t) {k : Reg} (hk : writesReg i k = false) :
    t.readV k = s.readV k := by
  cases e with
  | register x b hx => exact s.readV_setV_other b (ne_of_writesReg hk hx)
  | flagged x b f hx => exact (s.setF f).readV_setV_other b (ne_of_writesReg hk hx)
  | load x hi =>
    subst hi
    exact (s.loadFromI_getElem x k).trans (if_neg (of_decide_eq_false hk))
  | _ => simp [State.readV]

/-! ### F -/

/-- A draw leaves F or sets it to 1, however many rows it has (41 R154). -/
theorem Canvas.drawRows_f (bs : List Byte) (k : Canvas) (c0 r0 : Nat) :
    (Canvas.drawRows k bs c0 r0).f = k.f ∨ (Canvas.drawRows k bs c0 r0).f = 1 := by
  induction bs generalizing k r0 with
  | nil => exact .inl rfl
  | cons b bs ih =>
    have hrow : (k.drawRow b c0 (wrapRow r0)).f = k.f ∨ (k.drawRow b c0 (wrapRow r0)).f = 1 := by
      rw [(Canvas.drawRow_spec k b c0 (wrapRow r0)).2]
      split
      · exact .inr rfl
      · exact .inl rfl
    rcases ih (k.drawRow b c0 (wrapRow r0)) (r0 + 1) with h | h
    · exact hrow.imp h.trans h.trans
    · exact .inr h

/-- F is left alone, or written by a flag writer: Dxyn writes 1, the others 0 or 1. -/
theorem ExecEffect.f_cases {i : Instr} {s t : State} (e : ExecEffect i s t) :
    t.f = s.f ∨ (writesFlag i = true ∧ (t.f = 1 ∨ (t.f = 0 ∧ ∀ x y n, i ≠ .drw x y n))) := by
  cases e with
  | flagged x b f hx hi hd hf => exact .inr ⟨hi, hf.symm.imp_right fun h => ⟨h, hd⟩⟩
  | draw x y n hi => exact (Canvas.drawRows_f _ _ _ _).imp_right fun h => ⟨by rw [hi]; rfl, .inl h⟩
  | _ => exact .inl (by simp)

/-! ### The stack and SP -/

/-- The stack and SP are left alone, but for the return's SP and the call's push. -/
theorem ExecEffect.stack_cases {i : Instr} {s t : State} (e : ExecEffect i s t) :
    (t.stack = s.stack ∧ t.sp = s.sp) ∨
    (i = .ret ∧ s.sp ≠ 0 ∧ t.stack = s.stack ∧ t.sp = s.sp - 1) ∨
    ((∃ nnn, i = .call nnn) ∧ s.sp ≠ 15 ∧ t.stack = s.stack.set (s.sp + 1).val s.pc ∧ t.sp = s.sp + 1) := by
  cases e with
  | ret hi hs => exact .inr (.inl ⟨hi, hs, rfl, rfl⟩)
  | call nnn hi hs => exact .inr (.inr ⟨⟨nnn, hi⟩, hs, rfl, rfl⟩)
  | _ => exact .inl (by simp)

theorem sp_add_one_val {p : Fin 16} (h : p ≠ 15) : (p + 1).val = p.val + 1 :=
  Fin.val_add_one_of_lt (Fin.lt_last_iff_ne_last.mpr h)

/-- A push writes no entry but the one above SP (42 R172). -/
theorem State.push_stack_other (s : State) (hs : s.sp ≠ 15) {k : Fin 16} (hk : k.val ≠ s.sp.val + 1) :
    s.push.stack[k.val] = s.stack[k.val] := by
  rw [← sp_add_one_val hs] at hk
  rw [State.push_stack, Vector.getElem_set_ne _ _ hk.symm]

/-! ### I, DT, ST and what no instruction writes -/

theorem ExecEffect.i_eq {i : Instr} {s t : State} (e : ExecEffect i s t) (hI : ∀ nnn, i ≠ .ldI nnn)
    (hA : ∀ x, i ≠ .addI x) (hF : ∀ x, i ≠ .ldF x) : t.i = s.i := by
  cases e with
  | index w hi =>
    obtain ⟨nnn, h⟩ | ⟨x, h⟩ | ⟨x, h⟩ := hi
    · exact absurd h (hI nnn)
    · exact absurd h (hA x)
    · exact absurd h (hF x)
  | _ => simp

theorem ExecEffect.dt_eq {i : Instr} {s t : State} (e : ExecEffect i s t) (hi : ∀ x, i ≠ .ldDTVx x) : t.dt = s.dt := by
  cases e with
  | delayTimer x h => exact absurd h (hi x)
  | _ => simp

theorem ExecEffect.st_eq {i : Instr} {s t : State} (e : ExecEffect i s t) (hi : ∀ x, i ≠ .ldSTVx x) : t.st = s.st := by
  cases e with
  | soundTimer x h => exact absurd h (hi x)
  | _ => simp

/-- No instruction writes the cycle's inputs, cycle_count or the host's script. -/
theorem ExecEffect.inputs_eq {i : Instr} {s t : State} (e : ExecEffect i s t) :
    t.keys = s.keys ∧ t.random = s.random ∧ t.cycleCount = s.cycleCount ∧
    t.hostMoves = s.hostMoves ∧ t.hostTurns = s.hostTurns := by
  cases e <;> simp

/-! ### The frame statements -/

/-- Settles O16: a case per effect; the written register differs from the one read. -/
theorem generalRegisterFrame : Obligations.GeneralRegisterFrame :=
  fun _ _ _ h _ hk => (exec_effect h).readV_eq hk

/-- Settles O17, from the two ways an instruction can write F. -/
theorem flagFrame : Obligations.FlagFrame := by
  intro i s t h
  obtain hf | ⟨hi, hf | ⟨hf, hd⟩⟩ := (exec_effect h).f_cases
  · exact ⟨fun _ => hf, .inl hf, fun _ _ _ _ => .inl hf⟩
  · exact ⟨fun hn => by simp [hn] at hi, .inr (.inr hf), fun _ _ _ _ => .inr hf⟩
  · exact ⟨fun hn => by simp [hn] at hi, .inr (.inl hf), fun x y n hx => absurd hx (hd x y n)⟩

/-- Settles O20: no change, a return or a call; the call's entry is above SP and so is not S[0]. -/
theorem stackFrame : Obligations.StackFrame := by
  intro i s t h
  obtain ⟨hst, hsp⟩ | ⟨hi, _, hst, _⟩ | ⟨⟨nnn, hi⟩, hs, hst, _⟩ := (exec_effect h).stack_cases
  · simp [hst, hsp]
  · simp [hst, hi]
  · have hother (k : Fin 16) (hk : k.val ≠ s.sp.val + 1) : t.stack[k.val] = s.stack[k.val] := by
      simpa only [hst, State.push_stack] using s.push_stack_other hs hk
    exact ⟨fun hn => absurd hi (hn nnn), fun hn => absurd hi (hn nnn), fun _ _ => hother,
      hother 0 (Nat.zero_ne_add_one _)⟩

/-- Settles O21, field by field. -/
theorem specialRegisterFrame : Obligations.SpecialRegisterFrame :=
  fun _ _ _ h =>
    have e := exec_effect h
    ⟨e.i_eq, e.dt_eq, e.st_eq, e.inputs_eq⟩

end Sys2Proof.Machine
end

section
/-! PROOFS. The machine's invariant: every effect of an instruction keeps each of its parts (10_state.md R24, R25, R27),
and so does the rest of a step. -/

namespace Sys2Proof.Machine

/-! ### One instruction -/

/-- A store that passed its checks stays within the address space, or has no bytes (20 R65). -/
theorem State.memCanonical_storeAtI {s : State} {bs : List Byte} (h : s.MemCanonical)
    (hw : s.writeError bs.length = none) : (s.storeAtI bs).MemCanonical := by
  obtain h0 | ⟨_, hr⟩ := (s.writeError_eq_none bs.length).mp hw
  · obtain rfl := List.length_eq_zero_iff.mp h0
    exact h
  · exact Memory.wf_writeBytes bs h hr

theorem ExecEffect.memCanonical {i : Instr} {s t : State} (e : ExecEffect i s t) (h : s.MemCanonical) :
    t.MemCanonical := by
  cases e with
  | store bs hl hw => exact State.memCanonical_storeAtI h hw
  | _ => simpa [State.MemCanonical] using h

theorem ExecEffect.flagIsBit {i : Instr} {s t : State} (e : ExecEffect i s t) (h : s.FlagIsBit) : t.FlagIsBit := by
  obtain hf | ⟨_, hf | ⟨hf, _⟩⟩ := e.f_cases
  · rwa [State.FlagIsBit, hf]
  · exact .inr hf
  · exact .inl hf

/-- PC after an instruction: the fetch bounds the old PC, and so the words a skip passes; a return goes past a live stack
entry, itself the address of a fetched call. -/
theorem ExecEffect.pcDoesNotWrap {i : Instr} {s t : State} (e : ExecEffect i s t) (hf : s.fetchesInRange)
    (hl : s.LiveStackInRange) : t.PcDoesNotWrap := by
  unfold State.fetchesInRange at hf
  have hadvance : (s.pc + 2#16).toNat ≤ 0x1002 := by rw [toNat_add_two (by omega)]; omega
  cases e with
  | pcOnly w hw => simp only [State.PcDoesNotWrap, State.setPC_pc]; omega
  | ret hi hs =>
    have htop : s.stack[s.sp.val].toNat ≤ 0xFFE := hl s.sp (Fin.pos_of_ne_zero hs) le_rfl
    have hpc : (s.stack[s.sp.val] + 2#16).toNat ≤ 0x1002 := by rw [toNat_add_two (by omega)]; omega
    exact hpc
  | call nnn hi hs =>
    have := address11_lt nnn
    simp only [State.PcDoesNotWrap, State.setPC_pc]
    omega
  | _ => simpa [State.PcDoesNotWrap] using hadvance

/-- A return leaves fewer live entries; a call adds one, the PC it was fetched from. -/
theorem ExecEffect.liveStackInRange {i : Instr} {s t : State} (e : ExecEffect i s t) (hf : s.fetchesInRange)
    (hl : s.LiveStackInRange) : t.LiveStackInRange := by
  obtain ⟨hst, hsp⟩ | ⟨_, hs, hst, hsp⟩ | ⟨_, hs, hst, hsp⟩ := e.stack_cases
  · simpa only [State.LiveStackInRange, hst, hsp] using hl
  · intro k h0 hk
    simp only [hst]
    rw [hsp] at hk
    exact hl k h0 (hk.trans (Fin.sub_one_lt_iff.mpr (Fin.pos_of_ne_zero hs)).le)
  · intro k h0 hk
    rw [hsp, Fin.le_def, sp_add_one_val hs] at hk
    simp only [hst]
    by_cases htop : k.val = (s.sp + 1).val
    · simp only [htop, Vector.getElem_set_self]
      exact Nat.le_of_lt_succ hf
    · rw [Vector.getElem_set_ne _ _ (Ne.symm htop)]
      rw [sp_add_one_val hs] at htop
      exact hl k h0 (Fin.le_def.mpr (by omega))

theorem ExecEffect.inv {i : Instr} {s t : State} (e : ExecEffect i s t) (hf : s.fetchesInRange) (h : s.Inv) : t.Inv where
  memCanonical := e.memCanonical h.memCanonical
  flagIsBit := e.flagIsBit h.flagIsBit
  pcDoesNotWrap := e.pcDoesNotWrap hf h.liveStackInRange
  liveStackInRange := e.liveStackInRange hf h.liveStackInRange

/-! ### The rest of a step -/

/-- The invariant speaks of memory, F, PC, the stack and SP only. -/
theorem State.Inv.of_fields_eq {s t : State} (h : s.Inv) (hm : t.mem = s.mem) (hf : t.f = s.f) (hpc : t.pc = s.pc)
    (hst : t.stack = s.stack) (hsp : t.sp = s.sp) : t.Inv where
  memCanonical := by simpa only [State.MemCanonical, hm] using h.memCanonical
  flagIsBit := by simpa only [State.FlagIsBit, hf] using h.flagIsBit
  pcDoesNotWrap := by simpa only [State.PcDoesNotWrap, hpc] using h.pcDoesNotWrap
  liveStackInRange := by simpa only [State.LiveStackInRange, hst, hsp] using h.liveStackInRange

/-- Settles O24: the timers, the count and the host's turn touch no field of the invariant, and every effect of an
instruction that was fetched keeps it. -/
theorem everyStepKeepsTheInvariant : Obligations.EveryStepKeepsTheInvariant := by
  intro s t h hstep
  obtain ⟨i, u, hrun, hexec, rfl⟩ := step_eq_next.mp hstep
  have htick : s.tickTimers.Inv := h.of_fields_eq rfl rfl rfl rfl rfl
  have hu : u.Inv := (exec_effect hexec).inv hrun.1 htick
  exact hu.of_fields_eq (by simp) (by simp) (by simp) (by simp) (by simp)

end Sys2Proof.Machine
end

section
/-! PROOFS. What a program can observe: an instruction, a step and a run each depend on the state's view alone
(10_state.md R24, R30, R33, R35). -/

namespace Sys2Proof.Machine

/-! ### Functions that respect the view -/

/-- What the function answers, up to what no instruction reads, depends on the state's view alone. -/
def RespectsView (f : State → Host.Outcome State Fault Refusal) : Prop :=
  ∀ s, viewOutcome (f s.programView) = viewOutcome (f s)

/-- A computation that goes on from a next state and stops at an error. -/
def andThen (o : Host.Outcome State Fault Refusal) (f : State → Host.Outcome State Fault Refusal) :
    Host.Outcome State Fault Refusal :=
  match o with
  | .next t => f t
  | .fault e => .fault e
  | .refused r => .refused r

theorem RespectsView.viewOutcome_andThen {f : State → Host.Outcome State Fault Refusal} (hf : RespectsView f)
    (o : Host.Outcome State Fault Refusal) : viewOutcome (andThen (viewOutcome o) f) = viewOutcome (andThen o f) := by
  cases o with
  | next t => exact hf t
  | fault e => rfl
  | refused r => rfl

/-- Two computations that respect the view, one after the other, respect it. -/
theorem RespectsView.andThen {f g : State → Host.Outcome State Fault Refusal} (hf : RespectsView f)
    (hg : RespectsView g) : RespectsView fun s => andThen (f s) g := by
  intro s
  calc viewOutcome (Machine.andThen (f s.programView) g)
      _ = viewOutcome (Machine.andThen (viewOutcome (f s.programView)) g) := (hg.viewOutcome_andThen _).symm
      _ = viewOutcome (Machine.andThen (viewOutcome (f s)) g) := by rw [hf s]
      _ = viewOutcome (Machine.andThen (f s) g) := hg.viewOutcome_andThen _

/-- States of equal views have equal outcomes, up to what no instruction reads. -/
theorem RespectsView.congr {f : State → Host.Outcome State Fault Refusal} (hf : RespectsView f) {a b : State}
    (h : a.programView = b.programView) : viewOutcome (f a) = viewOutcome (f b) := by
  rw [← hf a, h, hf b]

/-! ### One instruction -/

@[simp] theorem State.programView_sp (s : State) : s.programView.sp = s.sp := rfl

@[simp] theorem State.programView_random (s : State) : s.programView.random = s.random := rfl

@[simp] theorem State.programView_hostMoves (s : State) : s.programView.hostMoves = s.hostMoves := rfl

@[simp] theorem State.rangeError_programView (s : State) (n : Nat) : s.programView.rangeError n = s.rangeError n := rfl

@[simp] theorem State.writeError_programView (s : State) (n : Nat) : s.programView.writeError n = s.writeError n := rfl

@[simp] theorem State.readV_programView (s : State) (x : Reg) : s.programView.readV x = s.readV x := rfl

@[simp] theorem State.scanKeys_programView (s : State) : s.programView.scanKeys = s.scanKeys := rfl

theorem Canvas.drawRow_display_congr {k k' : Canvas} (h : k.display = k'.display) (b : Byte) (c0 : Nat) (r : Fin 32) :
    (k.drawRow b c0 r).display = (k'.drawRow b c0 r).display :=
  Display.ext_pix fun c r' => by rw [(k.drawRow_spec b c0 r).1, (k'.drawRow_spec b c0 r).1, h]

/-- What a draw puts on the display does not depend on F (41 R151). -/
theorem Canvas.drawRows_display_congr (bs : List Byte) {k k' : Canvas} (h : k.display = k'.display) (c0 r0 : Nat) :
    (Canvas.drawRows k bs c0 r0).display = (Canvas.drawRows k' bs c0 r0).display := by
  induction bs generalizing k k' r0 with
  | nil => exact h
  | cons b bs ih => exact ih (Canvas.drawRow_display_congr h b c0 (wrapRow r0)) (r0 + 1)

theorem State.programView_drawSprite (s : State) (c0 r0 n : Nat) :
    (s.programView.drawSprite c0 r0 n).programView = (s.drawSprite c0 r0 n).programView :=
  congrArg (fun d => { s.programView with display := d })
    (Canvas.drawRows_display_congr (k := ⟨s.display, 0⟩) (k' := ⟨s.display, s.f⟩) (s.spriteRows n) rfl c0 r0)

/-- No instruction reads F, ST, RD or cycle_count: an instruction without a test of the state makes the same update of
the view; the others make the same test, and Dxyn draws the same pixels. -/
theorem exec_respectsView (i : Instr) : RespectsView (exec i) := by
  intro s
  cases i with
  | ret => by_cases h : s.sp = 0 <;> simp only [exec, execRet, State.programView_sp, h, if_true, if_false] <;> rfl
  | call nnn => by_cases h : s.sp = 15 <;> simp only [exec, execCall, State.programView_sp, h, if_true, if_false] <;> rfl
  | rnd x kk => simp only [exec, execRnd, State.programView_random]; split <;> rfl
  | drw x y n =>
    simp only [exec, execDrw, State.rangeError_programView, State.readV_programView]
    split
    · rfl
    · exact congrArg (fun u : State => Host.Outcome.next u.autoAdvance) (s.programView_drawSprite _ _ n)
  | skp x => simp only [exec, execSkp, State.readV_programView]; split <;> rfl
  | sknp x => simp only [exec, execSknp, State.readV_programView]; split <;> rfl
  | ldVxK x => simp only [exec, execLdVxK, State.scanKeys_programView]; split <;> rfl
  | ldB x => simp only [exec, execLdB, State.writeError_programView]; split <;> rfl
  | storeRegs x => simp only [exec, execStoreRegs, State.writeError_programView]; split <;> rfl
  | loadRegs x => simp only [exec, execLoadRegs, State.rangeError_programView]; split <;> rfl
  | _ => rfl

/-! ### A step and a run -/

/-- The end of a cycle that completes, and the host's turn after it (40 R130, R132). -/
def endOfStep (t : State) : Host.Outcome State Fault Refusal := .next t.countCycle.hostTurn

theorem step_eq_andThen {s : State} {i : Instr} (h : s.runsNext i) : step s = andThen (exec i s.tickTimers) endOfStep := by
  rw [step_of_runsNext h]
  cases exec i s.tickTimers <;> rfl

theorem run_succ (k : Nat) : Host.Core.run core (k + 1) = fun s => andThen (step s) (Host.Core.run core k) := by
  funext s
  simp only [Host.Core.run, core]
  cases step s <;> rfl

/-- ST's countdown does not show in the view. -/
theorem exec_tickTimers_respectsView (i : Instr) : RespectsView fun s => exec i s.tickTimers :=
  fun s => (exec_respectsView i).congr (a := s.programView.tickTimers) (b := s.tickTimers) rfl

/-- The host makes the same move; RD, which it may clear, does not show in the view. -/
theorem endOfStep_respectsView : RespectsView endOfStep := by
  intro t
  simp only [endOfStep, State.hostTurn, State.countCycle_hostMoves, State.programView_hostMoves]
  split <;> rfl

theorem step_respectsView : RespectsView step := by
  intro s
  rcases s.next_cases with ⟨i, hi⟩ | hn | ⟨hr, _, hd⟩
  · rw [step_eq_andThen hi, step_eq_andThen (s := s.programView) hi]
    exact (exec_tickTimers_respectsView i).andThen endOfStep_respectsView s
  · rw [step_of_not_inRange hn, step_of_not_inRange (s := s.programView) hn]
    rfl
  · rw [step_of_unknown hr hd, step_of_unknown (s := s.programView) hr hd]
    rfl

theorem run_respectsView (k : Nat) : RespectsView (Host.Core.run core k) := by
  induction k with
  | zero => exact fun _ => rfl
  | succ k ih =>
    rw [run_succ]
    exact step_respectsView.andThen ih

/-- Settles O26: a run respects the view, so equal views give equal outcomes up to the view. -/
theorem noProgramObservesFlagSoundOrRedraw : Obligations.NoProgramObservesFlagSoundOrRedraw :=
  fun k _ _ h => (run_respectsView k).congr h

end Sys2Proof.Machine
end

section
/-! PROOFS. Memory (20_memory.md): an instruction changes it through one checked store at I or not at all, so a step and
a run leave the font alone (R66), and the next fetch reads what was stored (R71). -/

namespace Sys2Proof.Machine

/-! ### The frame of memory and the font -/

/-- Memory is left alone, or written by one store at I that passed its checks (20 R62, R65, R66). -/
theorem ExecEffect.mem_cases {i : Instr} {s t : State} (e : ExecEffect i s t) :
    t.mem = s.mem ∨
    ∃ bs, bs.length = storedBytes i ∧ s.writeError bs.length = none ∧ t.mem = (s.storeAtI bs).mem := by
  cases e with
  | store bs hl hw => exact .inr ⟨bs, hl, hw, rfl⟩
  | _ => exact .inl (by simp)

/-- Settles O18: the bytes of the one store, if there is one, lie from I on. -/
theorem memoryFrame : Obligations.MemoryFrame := by
  intro i s t h a ha
  obtain hm | ⟨bs, hl, _, hm⟩ := (exec_effect h).mem_cases
  · rw [hm]
  · rw [hm]
    exact s.read_storeAtI_outside bs a (by rwa [hl])

/-- A store that passed its checks starts at 0x050 or above, or has no bytes (20 R66). -/
theorem ExecEffect.read_font {i : Instr} {s t : State} (e : ExecEffect i s t) {a : Nat} (ha : a < 0x50) :
    Memory.read t.mem a = Memory.read s.mem a := by
  obtain hm | ⟨bs, _, hw, hm⟩ := e.mem_cases
  · rw [hm]
  · have hchecked := (s.writeError_eq_none bs.length).mp hw
    rw [hm]
    exact s.read_storeAtI_outside bs a (by omega)

/-- The timers, the count and the host's turn write no memory. -/
theorem step_read_font {s t : State} (h : step s = .next t) {a : Nat} (ha : a < 0x50) :
    Memory.read t.mem a = Memory.read s.mem a := by
  obtain ⟨i, u, _, hexec, rfl⟩ := step_eq_next.mp h
  simpa using (exec_effect hexec).read_font ha

/-- What every completed step keeps, every run keeps. -/
theorem eq_of_stepsTo {α : Type} {f : State → α} (hf : ∀ s t, step s = .next t → f t = f s) {k : Nat} {s t : State}
    (h : stepsTo k s t) : f t = f s := by
  induction k generalizing s with
  | zero => exact congrArg f h
  | succ k ih =>
    obtain ⟨u, hu, hrest⟩ := h
    exact (ih hrest).trans (hf s u hu)

/-- Settles O25: every step keeps each byte of the font, so every run does. -/
theorem noRunChangesTheFont : Obligations.NoRunChangesTheFont :=
  fun _ _ _ h a ha => eq_of_stepsTo (f := fun s => Memory.read s.mem a) (fun _ _ hstep => step_read_font hstep ha) h

/-! ### The fetch after a store -/

/-- After a step that stores and advances, the fetch reads PC + 2 and PC + 3 in the memory the store left: the host's turn
writes neither memory nor PC (20 R71). -/
theorem fetch_after_store {i : Instr} {s t : State} {bs : List Byte} (hrun : s.runsNext i) (hstep : step s = .next t)
    (hstore : ∀ u, exec i s.tickTimers = .next u → u = (s.tickTimers.storeAtI bs).autoAdvance)
    (hpc : s.pc.toNat + 3 ≤ 0xFFF) :
    t.fetch = .ok (Memory.read (s.storeAtI bs).mem (s.pc.toNat + 2), Memory.read (s.storeAtI bs).mem (s.pc.toNat + 3)) := by
  obtain ⟨j, u, hj, hexec, rfl⟩ := step_eq_next.mp hstep
  obtain rfl := State.runsNext_unique hrun hj
  obtain rfl := hstore u hexec
  have hnext : (s.pc + 2#16).toNat = s.pc.toNat + 2 := toNat_add_two (by omega)
  have hbound : s.pc.toNat + 2 < 0xFFF := by omega
  rw [State.fetch_of_inRange (by simpa [State.fetchesInRange, hnext] using hbound)]
  simp [hnext]

/-- The effect of Fx55 itself already leaves V[0] and V[1] as the word at the new PC, when I = PC + 2. -/
theorem wordAtPC_of_storeRegs {s t : State} {x : Reg} (h : exec (.storeRegs x) s = .next t) (hx : 2 ≤ x.val)
    (hI : s.i.toNat = s.pc.toNat + 2) : t.wordAtPC = wordOfBytes s.v[0] s.v[1] := by
  obtain ⟨_, rfl⟩ := (exec_storeRegs_next s t x).mp h
  have hpc : (s.pc + 2).toNat = s.i.toNat := (toNat_add_two (by omega)).trans hI.symm
  have h0 := s.read_storeAtI_registers (x := x) (k := 0) (show 0 < x.val by omega)
  have h1 := s.read_storeAtI_registers (x := x) (k := 1) (show 1 < x.val by omega)
  simp only [State.wordAtPC, State.autoAdvance_pc, State.autoAdvance_mem, State.storeAtI_pc, hpc]
  exact congrArg₂ wordOfBytes h0 h1

/-- Settles O52: each of the two bytes fetched is read in the memory the store left, inside its bytes or outside them. -/
theorem nextFetchSeesTheStore : Obligations.NextFetchSeesTheStore := by
  refine ⟨fun _ _ _ => wordAtPC_of_storeRegs, ?storeRegs, ?ldB⟩
  case storeRegs =>
    intro s t x hrun hstep hpc
    have hfetch := fetch_after_store hrun hstep (fun u h => ((exec_storeRegs_next _ u x).mp h).2) hpc
    have hin (k : Reg) (hk : k < x) := s.read_storeAtI_registers hk
    have hout (a : Nat) (ha : a < s.i.toNat ∨ s.i.toNat + x.val ≤ a) :=
      s.read_storeAtI_outside (s.registersBelow x) a (by rwa [State.registersBelow_length])
    exact ⟨_, _, hfetch, fun k hk ha => ha ▸ hin k hk, fun k hk ha => ha ▸ hin k hk, hout _, hout _⟩
  case ldB =>
    intro s t x hrun hstep hpc
    have hfetch := fetch_after_store hrun hstep (fun u h => ((exec_ldB_next _ u x).mp h).2) hpc
    obtain ⟨hHundreds, hTens, hOnes⟩ := s.read_storeAtI_digits (s.readV x)
    have hout (a : Nat) (ha : a < s.i.toNat ∨ s.i.toNat + 3 ≤ a) :=
      s.read_storeAtI_outside (decimalDigits (s.readV x)) a ha
    refine ⟨_, _, hfetch, fun h => ⟨?_, ?_⟩, fun h => ⟨?_, ?_⟩, fun h => h ▸ hOnes, fun h => h ▸ hHundreds, hout _, hout _⟩
    · exact h ▸ hHundreds
    · rwa [show s.pc.toNat + 3 = s.i.toNat + 1 by omega]
    · exact h ▸ hTens
    · rwa [show s.pc.toNat + 3 = s.i.toNat + 2 by omega]

end Sys2Proof.Machine
end

section
/-! PROOFS. The fields of a word (30_encoding.md R91): those of the encoder's words are its operands, and a word is its
row's fixed bits and its fields put together. -/

namespace Sys2Proof

theorem fieldX_val (w : Word) : (fieldX w).val = w.toNat / 256 % 16 := rfl

theorem fieldY_val (w : Word) : (fieldY w).val = w.toNat / 16 % 16 := rfl

theorem fieldKK_toNat (w : Word) : (fieldKK w).toNat = w.toNat % 256 := rfl

theorem fieldNNN_toNat (w : Word) : (fieldNNN w).toNat = w.toNat % 0x1000 := by
  rw [fieldNNN, BitVec.toNat_ofNat]
  omega

/-- A pattern with 0 in the place of x has only its low byte below the top nibble. -/
theorem toNat_mod_lt_of_and_0F00 {op : Word} (h : op &&& 0x0F00 = 0) : op.toNat % 0x1000 < 0x100 := by
  have hlow : op &&& 0x0FFF = op &&& 0x00FF := by
    rw [show (0x0FFF : Word) = 0x0F00 ||| 0x00FF by decide, BitVec.and_or_distrib_left, h]
    exact BitVec.zero_or
  have h12 : (op &&& 0x0FFF).toNat = op.toNat % 2 ^ 12 := and_mask_toNat op 12 (by omega)
  have h8 : (op &&& 0x00FF).toNat = op.toNat % 2 ^ 8 := and_mask_toNat op 8 (by omega)
  rw [hlow] at h12
  omega

/-! ### The fields of the encoder's words -/

section

variable {op : Word} (h : op.toNat % 0x1000 = 0) (x y : Reg)
include h

theorem fieldNNN_formNNN {nnn : Word} (hf : nnnFits nnn = true) : fieldNNN (formNNN op nnn) = nnn := by
  have hlt : nnn.toNat < 0x1000 := of_decide_eq_true hf
  apply BitVec.eq_of_toNat_eq
  rw [fieldNNN_toNat, formNNN_toNat h]
  omega

theorem fieldX_formXKK (kk : Byte) : fieldX (formXKK op x kk) = x := by
  apply Fin.ext
  rw [fieldX_val, formXKK_toNat h]
  omega

theorem fieldKK_formXKK (kk : Byte) : fieldKK (formXKK op x kk) = kk := by
  apply BitVec.eq_of_toNat_eq
  rw [fieldKK_toNat, formXKK_toNat h]
  omega

theorem fieldX_formXYN (n : Nat) : fieldX (formXYN op x y n) = x := by
  apply Fin.ext
  rw [fieldX_val, formXYN_toNat h]
  omega

theorem fieldY_formXYN (n : Nat) : fieldY (formXYN op x y n) = y := by
  apply Fin.ext
  rw [fieldY_val, formXYN_toNat h]
  omega

theorem fieldN_formXYN {n : Nat} (hf : nibbleFits n = true) : fieldN (formXYN op x y n) = n := by
  have hlt : n < 16 := of_decide_eq_true hf
  rw [fieldN, formXYN_toNat h]
  omega

end

theorem fieldX_formX {op : Word} (h : op &&& 0x0F00 = 0) (hle : op.toNat ≤ 0xF0FF) (x : Reg) :
    fieldX (formX op x) = x := by
  have hlow := toNat_mod_lt_of_and_0F00 h
  apply Fin.ext
  rw [fieldX_val, formX_toNat h hle]
  omega

/-! ### A word is its fixed bits and its fields -/

section

variable {op w : Word} (h : op.toNat % 0x1000 = 0) (htop : w.toNat / 0x1000 = op.toNat / 0x1000)
include h htop

theorem formNNN_fields : formNNN op (fieldNNN w) = w := by
  apply BitVec.eq_of_toNat_eq
  rw [formNNN_toNat h, fieldNNN_toNat]
  omega

theorem formXKK_fields : formXKK op (fieldX w) (fieldKK w) = w := by
  apply BitVec.eq_of_toNat_eq
  rw [formXKK_toNat h, fieldX_val, fieldKK_toNat]
  omega

theorem formXYN_fields {n : Nat} (hn : fieldN w = n % 16) : formXYN op (fieldX w) (fieldY w) n = w := by
  rw [fieldN] at hn
  apply BitVec.eq_of_toNat_eq
  rw [formXYN_toNat h, fieldX_val, fieldY_val]
  omega

end

theorem formX_fields {op w : Word} (h : op &&& 0x0F00 = 0) (hle : op.toNat ≤ 0xF0FF) (hp : op &&& 0xF0FF = op)
    (hw : w &&& 0xF0FF = op) : formX op (fieldX w) = w := by
  have hlow := toNat_mod_lt_of_and_0F00 h
  obtain ⟨htop, hkk⟩ := (and_F0FF_eq_iff w op hp).mp hw
  apply BitVec.eq_of_toNat_eq
  rw [formX_toNat h hle, fieldX_val]
  omega

end Sys2Proof
end

section
/-! PROOFS. Encoding and decoding undo each other (30_encoding.md R91, R98), one lemma per form of word and one line per
row of the table. -/

namespace Sys2Proof

/-! ### Decoding undoes encoding -/

/-- Row k decodes a word that carries its fixed bits. -/
theorem decodeWord_row (k : Nat) {r : Row} (hr : rows[k]? = some r) {w : Word} (hw : w &&& r.mask = r.pattern) :
    decodeWord w = .ok (r.make (decodeFields (highByte w) (lowByte w))) :=
  decodeWord_of_row (List.mem_of_getElem? hr) (beq_iff_eq.mpr hw)

/-- Row k makes the instruction of the word's own fields. -/
theorem rowDecodes_nnn (k : Nat) {mask p : Word} {make : Word → Instr}
    (hr : rows[k]? = some ⟨mask, p, fun d => make d.nnn⟩) : rowDecodes mask p fun w => make (fieldNNN w) :=
  rowDecodes_of_row (List.mem_of_getElem? hr) fun w => by rw [decodeFields_of_word]

theorem rowDecodes_xkk (k : Nat) {mask p : Word} {make : Reg → Byte → Instr}
    (hr : rows[k]? = some ⟨mask, p, fun d => make d.x d.immediate⟩) :
    rowDecodes mask p fun w => make (fieldX w) (fieldKK w) :=
  rowDecodes_of_row (List.mem_of_getElem? hr) fun w => by rw [decodeFields_of_word]

theorem rowDecodes_xy (k : Nat) {mask p : Word} {make : Reg → Reg → Instr}
    (hr : rows[k]? = some ⟨mask, p, fun d => make d.x d.y⟩) : rowDecodes mask p fun w => make (fieldX w) (fieldY w) :=
  rowDecodes_of_row (List.mem_of_getElem? hr) fun w => by rw [decodeFields_of_word]

section

variable (k : Nat) {mask pattern op : Word} {x y : Reg}

theorem decodeWord_formNNN {make : Word → Instr} {nnn : Word}
    (hr : rows[k]? = some ⟨mask, pattern, fun d => make d.nnn⟩) (hw : formNNN op nnn &&& mask = pattern)
    (hf : nnnFits nnn = true) (h : op.toNat % 0x1000 = 0 := by decide) : decodeWord (formNNN op nnn) = .ok (make nnn) := by
  simp only [rowDecodes_nnn k hr _ hw, fieldNNN_formNNN h hf]

theorem decodeWord_formXKK {make : Reg → Byte → Instr} {kk : Byte}
    (hr : rows[k]? = some ⟨mask, pattern, fun d => make d.x d.immediate⟩) (hw : formXKK op x kk &&& mask = pattern)
    (h : op.toNat % 0x1000 = 0 := by decide) : decodeWord (formXKK op x kk) = .ok (make x kk) := by
  simp only [rowDecodes_xkk k hr _ hw, fieldX_formXKK h, fieldKK_formXKK h]

theorem decodeWord_formXY {make : Reg → Reg → Instr} {n : Nat}
    (hr : rows[k]? = some ⟨mask, pattern, fun d => make d.x d.y⟩) (hw : formXYN op x y n &&& mask = pattern)
    (h : op.toNat % 0x1000 = 0 := by decide) : decodeWord (formXYN op x y n) = .ok (make x y) := by
  simp only [rowDecodes_xy k hr _ hw, fieldX_formXYN h, fieldY_formXYN h]

theorem decodeWord_formX {make : Reg → Instr}
    (hr : rows[k]? = some ⟨mask, pattern, fun d => make d.x⟩) (hw : formX op x &&& mask = pattern)
    (h : op &&& 0x0F00 = 0 := by decide) (hle : op.toNat ≤ 0xF0FF := by decide) :
    decodeWord (formX op x) = .ok (make x) := by
  simp only [decodeWord_row k hr hw, decodeFields_of_word, fieldX_formX h hle]

end

theorem decodeWord_drw {x y : Reg} {n : Nat} (hf : nibbleFits n = true) :
    decodeWord (encode (.drw x y n)) = .ok (.drw x y n) := by
  have h : (0xD000 : Word).toNat % 0x1000 = 0 := by decide
  rw [decodeWord_row 22 rfl (Laws.RowBits.drw x y n)]
  simp only [decodeFields_of_word, encode, fieldX_formXYN h, fieldY_formXYN h, fieldN_formXYN h x y hf]

open Laws in
/-- Settles O1: the word of an instruction carries its row's fixed bits (`Laws.RowBits`), so that row decodes it, and the
fields the row reads are the operands. -/
theorem decodeUndoesEncode : Obligations.DecodeUndoesEncode := by
  intro i hf
  cases i with
  | cls => exact decodeWord_row 0 rfl RowBits.cls
  | ret => exact decodeWord_row 1 rfl RowBits.ret
  | jp nnn => exact decodeWord_formNNN 2 rfl (RowBits.jp nnn) hf
  | call nnn => exact decodeWord_formNNN 3 rfl (RowBits.call nnn) hf
  | seImm x kk => exact decodeWord_formXKK 4 rfl (RowBits.seImm x kk)
  | sneImm x kk => exact decodeWord_formXKK 5 rfl (RowBits.sneImm x kk)
  | seReg x y => exact decodeWord_formXY 6 rfl (RowBits.seReg x y)
  | ldImm x kk => exact decodeWord_formXKK 7 rfl (RowBits.ldImm x kk)
  | addImm x kk => exact decodeWord_formXKK 8 rfl (RowBits.addImm x kk)
  | ldReg x y => exact decodeWord_formXY 9 rfl (RowBits.ldReg x y)
  | orReg x y => exact decodeWord_formXY 10 rfl (RowBits.orReg x y)
  | andReg x y => exact decodeWord_formXY 11 rfl (RowBits.andReg x y)
  | xorReg x y => exact decodeWord_formXY 12 rfl (RowBits.xorReg x y)
  | addReg x y => exact decodeWord_formXY 13 rfl (RowBits.addReg x y)
  | subReg x y => exact decodeWord_formXY 14 rfl (RowBits.subReg x y)
  | shr x y => exact decodeWord_formXY 15 rfl (RowBits.shr x y)
  | subnReg x y => exact decodeWord_formXY 16 rfl (RowBits.subnReg x y)
  | shl x y => exact decodeWord_formXY 17 rfl (RowBits.shl x y)
  | sneReg x y => exact decodeWord_formXY 18 rfl (RowBits.sneReg x y)
  | ldI nnn => exact decodeWord_formNNN 19 rfl (RowBits.ldI nnn) hf
  | jpV0 nnn => exact decodeWord_formNNN 20 rfl (RowBits.jpV0 nnn) hf
  | rnd x kk => exact decodeWord_formXKK 21 rfl (RowBits.rnd x kk)
  | drw x y n => exact decodeWord_drw hf
  | skp x => exact decodeWord_formX 23 rfl (RowBits.skp x)
  | sknp x => exact decodeWord_formX 24 rfl (RowBits.sknp x)
  | ldVxDT x => exact decodeWord_formX 25 rfl (RowBits.ldVxDT x)
  | ldVxK x => exact decodeWord_formX 26 rfl (RowBits.ldVxK x)
  | ldDTVx x => exact decodeWord_formX 27 rfl (RowBits.ldDTVx x)
  | ldSTVx x => exact decodeWord_formX 28 rfl (RowBits.ldSTVx x)
  | addI x => exact decodeWord_formX 29 rfl (RowBits.addI x)
  | ldF x => exact decodeWord_formX 30 rfl (RowBits.ldF x)
  | ldB x => exact decodeWord_formX 31 rfl (RowBits.ldB x)
  | storeRegs x => exact decodeWord_formX 32 rfl (RowBits.storeRegs x)
  | loadRegs x => exact decodeWord_formX 33 rfl (RowBits.loadRegs x)

/-! ### Encoding undoes decoding -/

/-- The row makes, of every word it hits, a well-formed instruction that encodes to the word. -/
def Row.EncodesBack (r : Row) : Prop :=
  ∀ w : Word, w &&& r.mask = r.pattern →
    (r.make (decodeFields (highByte w) (lowByte w))).wellFormed = true ∧
    encode (r.make (decodeFields (highByte w) (lowByte w))) = w

theorem encodesBack_fixed {p : Word} {i : Instr} (hf : i.wellFormed = true) (he : encode i = p) :
    Row.EncodesBack ⟨0xFFFF, p, fun _ => i⟩ :=
  fun w hw => ⟨hf, he.trans (hw.symm.trans (and_FFFF_eq w))⟩

theorem encodesBack_nnn {op : Word} (make : Word → Instr)
    (hf : ∀ nnn, (make nnn).wellFormed = nnnFits nnn := by intros; rfl)
    (he : ∀ nnn, encode (make nnn) = formNNN op nnn := by intros; rfl) (h : op.toNat % 0x1000 = 0 := by decide) :
    Row.EncodesBack ⟨0xF000, op, fun d => make d.nnn⟩ := by
  intro w hw
  have htop := (and_F000_eq_iff w op h).mp hw
  rw [decodeFields_of_word, hf, he]
  exact ⟨decide_eq_true (by rw [fieldNNN_toNat]; omega), formNNN_fields h htop⟩

theorem encodesBack_xkk {op : Word} (make : Reg → Byte → Instr)
    (hf : ∀ x kk, (make x kk).wellFormed = true := by intros; rfl)
    (he : ∀ x kk, encode (make x kk) = formXKK op x kk := by intros; rfl) (h : op.toNat % 0x1000 = 0 := by decide) :
    Row.EncodesBack ⟨0xF000, op, fun d => make d.x d.immediate⟩ := by
  intro w hw
  have htop := (and_F000_eq_iff w op h).mp hw
  rw [decodeFields_of_word, hf, he]
  exact ⟨rfl, formXKK_fields h htop⟩

theorem encodesBack_xy {op p : Word} {n : Nat} (make : Reg → Reg → Instr)
    (hf : ∀ x y, (make x y).wellFormed = true := by intros; rfl)
    (he : ∀ x y, encode (make x y) = formXYN op x y n := by intros; rfl) (h : op.toNat % 0x1000 = 0 := by decide)
    (hp : p &&& 0xF00F = p := by decide) (hn : p.toNat = op.toNat + n % 16 := by decide) :
    Row.EncodesBack ⟨0xF00F, p, fun d => make d.x d.y⟩ := by
  intro w hw
  obtain ⟨htop, hlast⟩ := (and_F00F_eq_iff w p hp).mp hw
  rw [decodeFields_of_word, hf, he]
  exact ⟨rfl, formXYN_fields h (by omega) (by rw [hlast, fieldN]; omega)⟩

theorem encodesBack_drw : Row.EncodesBack ⟨0xF000, 0xD000, fun d => .drw d.x d.y d.nibble⟩ := by
  intro w hw
  have htop := (and_F000_eq_iff w 0xD000 (by decide)).mp hw
  have hlast : fieldN w < 16 := Nat.mod_lt _ (by decide)
  rw [decodeFields_of_word]
  exact ⟨decide_eq_true hlast, formXYN_fields (by decide) htop (Nat.mod_eq_of_lt hlast).symm⟩

theorem encodesBack_x {op : Word} (make : Reg → Instr) (hf : ∀ x, (make x).wellFormed = true := by intros; rfl)
    (he : ∀ x, encode (make x) = formX op x := by intros; rfl) (h : op &&& 0x0F00 = 0 := by decide)
    (hle : op.toNat ≤ 0xF0FF := by decide) (hp : op &&& 0xF0FF = op := by decide) :
    Row.EncodesBack ⟨0xF0FF, op, fun d => make d.x⟩ := by
  intro w hw
  rw [decodeFields_of_word, hf, he]
  exact ⟨rfl, formX_fields h hle hp hw⟩

theorem rowsControl_encodeBack : ∀ r ∈ rowsControl, r.EncodesBack := by
  simp only [rowsControl, List.forall_mem_cons]
  exact ⟨encodesBack_fixed rfl rfl, encodesBack_fixed rfl rfl, encodesBack_nnn .jp, encodesBack_nnn .call,
    encodesBack_xkk .seImm, encodesBack_xkk .sneImm, encodesBack_xy .seReg, encodesBack_xkk .ldImm,
    encodesBack_xkk .addImm, List.forall_mem_nil _⟩

theorem rowsAlu_encodeBack : ∀ r ∈ rowsAlu, r.EncodesBack := by
  simp only [rowsAlu, List.forall_mem_cons]
  exact ⟨encodesBack_xy .ldReg, encodesBack_xy .orReg, encodesBack_xy .andReg, encodesBack_xy .xorReg,
    encodesBack_xy .addReg, encodesBack_xy .subReg, encodesBack_xy .shr, encodesBack_xy .subnReg,
    encodesBack_xy .shl, encodesBack_xy .sneReg, List.forall_mem_nil _⟩

theorem rowsIndex_encodeBack : ∀ r ∈ rowsIndex, r.EncodesBack := by
  simp only [rowsIndex, List.forall_mem_cons]
  exact ⟨encodesBack_nnn .ldI, encodesBack_nnn .jpV0, encodesBack_xkk .rnd, encodesBack_drw, encodesBack_x .skp,
    encodesBack_x .sknp, List.forall_mem_nil _⟩

theorem rowsF_encodeBack : ∀ r ∈ rowsF, r.EncodesBack := by
  simp only [rowsF, List.forall_mem_cons]
  exact ⟨encodesBack_x .ldVxDT, encodesBack_x .ldVxK, encodesBack_x .ldDTVx, encodesBack_x .ldSTVx,
    encodesBack_x .addI, encodesBack_x .ldF, encodesBack_x .ldB, encodesBack_x .storeRegs,
    encodesBack_x .loadRegs, List.forall_mem_nil _⟩

theorem rows_encodeBack : ∀ r ∈ rows, r.EncodesBack := by
  simp only [rows, List.forall_mem_append]
  exact ⟨⟨⟨rowsControl_encodeBack, rowsAlu_encodeBack⟩, rowsIndex_encodeBack⟩, rowsF_encodeBack⟩

/-- Settles O2: a word that decodes hits a row, and every row encodes back what it makes. -/
theorem encodeUndoesDecode : Obligations.EncodeUndoesDecode := by
  intro w i hi
  obtain ⟨r, hr, hw, hd⟩ | ⟨_, hd⟩ := decodeWord_cases w
  · obtain rfl := Except.ok.inj (hd.symm.trans hi)
    exact rows_encodeBack r hr w (beq_iff_eq.mp hw)
  · simp [hd] at hi

end Sys2Proof
end

section
/-! PROOFS. The decoder's record (30_encoding.md R92), dispatch (R96), the illegal words (R100), the fields that take no
part (R99), and sample words (R98). -/

namespace Sys2Proof

/-! ### Dispatch (30 R96) -/

theorem Row.hits_iff (r : Row) (w : Word) : r.hits w = true ↔ w &&& r.mask = r.pattern := beq_iff_eq

/-- The order of the rows does not matter, since no word hits two of them. -/
theorem find_row_of_perm {l : List Row} (hl : l.Perm rows) (w : Word) :
    l.find? (fun r => r.hits w) = rows.find? (fun r => r.hits w) := by
  have hexcl : l.Pairwise fun a b => ∀ w, ¬ (a.hits w = true ∧ b.hits w = true) :=
    rows_pairwise_exclusive.perm hl.symm fun hab w hba => hab w hba.symm
  cases h : rows.find? (fun r => r.hits w) with
  | some r =>
    have hr : r ∈ l := hl.mem_iff.mpr (List.mem_of_find?_eq_some h)
    exact find_row_of_hits hexcl hr (List.find?_some (p := fun r : Row => r.hits w) h)
  | none =>
    rw [List.find?_eq_none] at h ⊢
    exact fun r hr => h r (hl.mem_iff.mp hr)

/-- Settles O3: by the masks, no word hits two rows (`rows_pairwise_exclusive`), so neither place nor order matters. -/
theorem dispatchRowsAreExclusive : Obligations.DispatchRowsAreExclusive := by
  refine ⟨fun r _ w => r.hits_iff w, fun r hr w hw => decodeWord_of_row hr hw, ?exclusive,
    fun l hl => find_row_of_perm hl⟩
  case exclusive => simpa only [Row.hits_iff] using rows_pairwise_exclusive

/-! ### The record (30 R92) -/

theorem shift_and_F_toNat (w : Word) (k : Nat) : ((w >>> k) &&& 0xF).toNat = w.toNat / 2 ^ k % 2 ^ 4 := by
  have hmask : ((w >>> k) &&& 0xF).toNat = (w >>> k).toNat % 2 ^ 4 := and_mask_toNat _ 4 (by omega)
  rw [hmask, BitVec.toNat_ushiftRight, Nat.shiftRight_eq_div_pow]

theorem fieldX_eq_shift (w : Word) : BitVec.ofNat 16 (fieldX w).val = (w >>> 8) &&& 0xF := by
  apply BitVec.eq_of_toNat_eq
  rw [shift_and_F_toNat, BitVec.toNat_ofNat, fieldX_val]
  omega

theorem fieldY_eq_shift (w : Word) : BitVec.ofNat 16 (fieldY w).val = (w >>> 4) &&& 0xF := by
  apply BitVec.eq_of_toNat_eq
  rw [shift_and_F_toNat, BitVec.toNat_ofNat, fieldY_val]
  omega

theorem fieldKK_eq_mask (w : Word) : (fieldKK w).setWidth 16 = w &&& 0xFF := by
  apply BitVec.eq_of_toNat_eq
  have hmask : (w &&& 0xFF).toNat = w.toNat % 2 ^ 8 := and_mask_toNat w 8 (by omega)
  rw [hmask, BitVec.toNat_setWidth, fieldKK_toNat]
  omega

theorem fieldN_eq_mask (w : Word) : BitVec.ofNat 16 (fieldN w) = w &&& 0xF := by
  apply BitVec.eq_of_toNat_eq
  have hmask : (w &&& 0xF).toNat = w.toNat % 2 ^ 4 := and_mask_toNat w 4 (by omega)
  rw [hmask, BitVec.toNat_ofNat, fieldN]
  omega

/-- The record of two bytes, by the fields of the word they make. -/
theorem decodeFields_of_bytes (high low : Byte) : decodeFields high low =
    { full := wordOfBytes high low, address := address11 (wordOfBytes high low),
      nnn := fieldNNN (wordOfBytes high low), nibble := fieldN (wordOfBytes high low),
      x := fieldX (wordOfBytes high low), y := fieldY (wordOfBytes high low),
      immediate := fieldKK (wordOfBytes high low) } := by
  simpa using decodeFields_of_word (wordOfBytes high low)

/-- Settles O4: the record is that of the word the two bytes make, whose number is high * 256 + low. -/
theorem decoderFieldIdentities : Obligations.DecoderFieldIdentities := by
  intro high low
  have hfull := wordOfBytes_toNat high low
  rw [decodeFields_of_bytes]
  refine ⟨hfull, rfl, ?nibble, ?x, ?y, ?immediate, fieldX_eq_shift _, fieldY_eq_shift _,
    fieldKK_eq_mask _, fieldN_eq_mask _⟩
  case nibble => simp only [fieldN]; omega
  case x => simp only [fieldX_val]; omega
  case y => simp only [fieldY_val]; omega
  case immediate => exact BitVec.eq_of_toNat_eq (by rw [fieldKK_toNat]; omega)

/-! ### The illegal words (30 R100) -/

theorem and_FFFF_eq_iff (w p : Word) : w &&& 0xFFFF = p ↔ w.toNat = p.toNat := by
  rw [and_FFFF_eq, BitVec.toNat_inj]

theorem rowsControl_hit_iff (w : Word) : (∃ r ∈ rowsControl, r.hits w = true) ↔
    w.toNat = 0x00E0 ∨ w.toNat = 0x00EE ∨ w.toNat / 0x1000 ∈ [1, 2, 3, 4] ∨
    (w.toNat / 0x1000 = 5 ∧ fieldN w = 0) ∨ w.toNat / 0x1000 ∈ [6, 7] := by
  simp (disch := decide) only [rowsControl, List.exists_mem_cons_iff, Row.hits_iff, and_F000_eq_iff, and_F00F_eq_iff,
    and_FFFF_eq_iff]
  simp [fieldN, or_assoc]

theorem rowsAlu_hit_iff (w : Word) : (∃ r ∈ rowsAlu, r.hits w = true) ↔
    (w.toNat / 0x1000 = 8 ∧ fieldN w ∈ [0, 1, 2, 3, 4, 5, 6, 7, 14]) ∨ (w.toNat / 0x1000 = 9 ∧ fieldN w = 0) := by
  simp (disch := decide) only [rowsAlu, List.exists_mem_cons_iff, Row.hits_iff, and_F00F_eq_iff]
  simp [fieldN, or_assoc, and_or_left]

theorem rowsIndex_hit_iff (w : Word) : (∃ r ∈ rowsIndex, r.hits w = true) ↔
    w.toNat / 0x1000 ∈ [0xA, 0xB, 0xC, 0xD] ∨ (w.toNat / 0x1000 = 0xE ∧ w.toNat % 0x100 ∈ [0x9E, 0xA1]) := by
  simp (disch := decide) only [rowsIndex, List.exists_mem_cons_iff, Row.hits_iff, and_F000_eq_iff, and_F0FF_eq_iff]
  simp [or_assoc, and_or_left]

theorem rowsF_hit_iff (w : Word) : (∃ r ∈ rowsF, r.hits w = true) ↔
    w.toNat / 0x1000 = 0xF ∧ w.toNat % 0x100 ∈ [0x07, 0x0A, 0x15, 0x18, 0x1E, 0x29, 0x33, 0x55, 0x65] := by
  simp (disch := decide) only [rowsF, List.exists_mem_cons_iff, Row.hits_iff, and_F0FF_eq_iff]
  simp [and_or_left]

/-- The words that hit a row are the legal ones: for each top nibble, the rows' last nibbles or low bytes are those the
table of illegal words leaves out. -/
theorem row_hit_iff (w : Word) : (∃ r ∈ rows, r.hits w = true) ↔ ¬ illegalWord w := by
  have htop : w.toNat / 0x1000 < 16 := by omega
  have hzero : w.toNat = 0x00E0 ∨ w.toNat = 0x00EE → w.toNat / 0x1000 = 0 := by omega
  have hlast : fieldN w < 16 := Nat.mod_lt _ (by decide)
  simp only [rows, List.mem_append, or_and_right, exists_or, rowsControl_hit_iff, rowsAlu_hit_iff, rowsIndex_hit_iff,
    rowsF_hit_iff, illegalWord]
  generalize w.toNat / 0x1000 = t at *
  interval_cases t <;> simp at hzero ⊢ <;> omega

/-- Settles O5: the decoder refuses a word exactly when the word hits no row. -/
theorem illegalWordsAreRefused : Obligations.IllegalWordsAreRefused := by
  intro w
  obtain ⟨r, hr, hw, hd⟩ | ⟨hnone, hd⟩ := decodeWord_cases w
  · simpa [hd] using (row_hit_iff w).mp ⟨r, hr, hw⟩
  · have hillegal : illegalWord w := by
      by_contra hlegal
      obtain ⟨r, hr, hw⟩ := (row_hit_iff w).mpr hlegal
      simp [hnone r hr] at hw
    simp [hd, hillegal]

/-! ### The fields that take no part (30 R99) -/

open Machine

theorem address11_congr {m n : Word} (h : m.toNat % 0x800 = n.toNat % 0x800) : address11 m = address11 n := by
  rw [address11_eq, address11_eq, h]

theorem v0Target_congr {m n : Word} (h : m.toNat % 0x100 = n.toNat % 0x100) (b : Byte) : v0Target b m = v0Target b n := by
  rw [v0Target_eq, v0Target_eq]
  congr 1
  omega

/-- Settles O6: the rows decode by their fixed bits alone; an address is read through `address11` or `v0Target`, which
keep its low bits, and the other meanings do not read the ignored operand. -/
theorem ignoredFieldsHaveNoEffect : Obligations.IgnoredFieldsHaveNoEffect := by
  refine ⟨⟨rowDecodes_nnn 2 rfl, ?jp⟩, ⟨rowDecodes_nnn 3 rfl, ?call⟩, ⟨rowDecodes_nnn 19 rfl, ?ldI⟩,
    ⟨rowDecodes_nnn 20 rfl, ?jpV0⟩, ⟨rowDecodes_xkk 21 rfl, ?rnd⟩, ⟨rowDecodes_xy 15 rfl, ?shr⟩,
    ⟨rowDecodes_xy 17 rfl, ?shl⟩, ⟨rowDecodes_xy 18 rfl, ?sneReg⟩,
    fun _ => decodeWord_row 0 rfl, fun _ => decodeWord_row 1 rfl⟩
  case jp => intro m n h s; simp only [exec, execJp, address11_congr h]
  case call => intro m n h s; simp only [exec, execCall, address11_congr h]
  case ldI => intro m n h s; simp only [exec, execLdI, address11_congr h]
  case jpV0 => intro m n h s; simp only [exec, execJpV0, v0Target_congr h]
  case rnd => intros; rfl
  case shr => intros; rfl
  case shl => intros; rfl
  case sneReg => intros; rfl

/-! ### Sample words (30 R97, R98) -/

/-- Settles O7, each word by evaluation. -/
theorem sampleWordsDecode : Obligations.SampleWordsDecode :=
  ⟨rfl, rfl, rfl, rfl, rfl, rfl, rfl, rfl, rfl, rfl, rfl⟩

end Sys2Proof
end

section
/-! PROOFS. The cycle (40_cycle.md): what a step runs (R131), when its fetch fails (R121), its timers (R123) and its count
(R130), and the table of the next PC (R133). -/

namespace Sys2Proof.Machine

/-! ### The step (40 R121, R131) -/

/-- Settles O8: the range and the decode of the hypotheses are those of the instruction the state runs next. -/
theorem stepRunsTheDecodedInstruction : Obligations.StepRunsTheDecodedInstruction := by
  intro s i hpc hdecode
  have hrun : s.runsNext i := ⟨Nat.lt_of_succ_le hpc, s.decode_at_pc ▸ hdecode⟩
  exact step_of_runsNext hrun

/-- Settles O10: such a PC is out of the fetch's range. -/
theorem fetchOutOfRangeEndsTheRun : Obligations.FetchOutOfRangeEndsTheRun :=
  fun _ hpc => step_of_not_inRange (Nat.not_lt.mpr hpc)

/-! ### The count and the timers (40 R123, R130) -/

/-- Settles O14: neither the instruction nor the host's turn writes cycle_count, so the end of the cycle's 1 is all. -/
theorem everyCompletedCycleIsCounted : Obligations.EveryCompletedCycleIsCounted := by
  intro s t hstep
  obtain ⟨i, u, _, hexec, rfl⟩ := step_eq_next.mp hstep
  obtain ⟨_, _, hcount, _, _⟩ := (exec_effect hexec).inputs_eq
  simp [hcount]

/-- Settles O13: after the countdown only the instruction's own load writes a timer, and the host's turn writes none. -/
theorem timersCountDownOncePerCycle : Obligations.TimersCountDownOncePerCycle := by
  intro s t i hrun hstep
  obtain ⟨j, u, hj, hexec, rfl⟩ := step_eq_next.mp hstep
  obtain rfl := State.runsNext_unique hrun hj
  have e := exec_effect hexec
  simp only [State.hostTurn_dt, State.hostTurn_st, State.countCycle_dt, State.countCycle_st]
  refine ⟨?loadDT, ?countDT, ?loadST, ?countST⟩
  case loadDT => rintro x rfl; obtain rfl := (exec_ldDTVx_next _ u x).mp hexec; rfl
  case countDT => intro hi; rw [e.dt_eq hi]; exact countDown_toNat s.dt
  case loadST => rintro x rfl; obtain rfl := (exec_ldSTVx_next _ u x).mp hexec; rfl
  case countST => intro hi; rw [e.st_eq hi]; exact countDown_toNat s.st

/-! ### The next PC (40 R133) -/

/-- A skip and its auto-advance: PC + 4 when the condition holds, else PC + 2 (40 R125, R126). -/
theorem State.skipIf_autoAdvance_pc (s : State) {taken : Bool} {c : Prop} [Decidable c] (h : taken = true ↔ c) :
    (s.skipIf taken).autoAdvance.pc = if c then s.pc + 4 else s.pc + 2 := by
  cases taken with
  | false => rw [if_neg (h.not.mp Bool.false_ne_true)]; rfl
  | true => rw [if_pos (h.mp rfl)]; exact add_two_add_two s.pc

/-- A byte names at most one key, so some key it names has the property exactly when that one has. -/
theorem exists_named_key_iff {b : Byte} {k : Fin 16} (hk : b.toNat = k.val) (p : Fin 16 → Prop) :
    (∃ j : Fin 16, b.toNat = j.val ∧ p j) ↔ p k := by
  simp [hk, ← Fin.ext_iff]

/-- Fx0A advances exactly when some key is pressed (45 R275). -/
theorem exec_ldVxK_pc {s t : State} {x : Reg} (h : exec (.ldVxK x) s = .next t) :
    t.pc = if ∀ k, s.key k = false then s.pc else s.pc + 2 := by
  obtain ⟨k, hscan, rfl⟩ | ⟨hscan, rfl⟩ := (exec_ldVxK_next s t x).mp h
  · have hpressed : ¬ ∀ k, s.key k = false := by simp [← State.scanKeys_eq_none, hscan]
    rw [if_neg hpressed]
    rfl
  · rw [if_pos (t.scanKeys_eq_none.mp hscan)]

/-- Settles O15: jumps and calls write PC themselves, skips and Fx0A decide by their test, and every other instruction
that completes ends with the auto-advance. -/
theorem nextPCTable : Obligations.NextPCTable := by
  intro i s t h
  cases i with
  | ret => obtain ⟨_, rfl⟩ := (exec_ret_next s t).mp h; rfl
  | jp nnn => obtain rfl := (exec_jp_next s t nnn).mp h; exact address11_eq nnn
  | call nnn => obtain ⟨_, rfl⟩ := (exec_call_next s t nnn).mp h; exact address11_eq nnn
  | jpV0 nnn => obtain rfl := (exec_jpV0_next s t nnn).mp h; exact v0Target_eq _ nnn
  | seImm x kk => obtain rfl := (exec_seImm_next s t x kk).mp h; exact s.skipIf_autoAdvance_pc beq_iff_eq
  | sneImm x kk => obtain rfl := (exec_sneImm_next s t x kk).mp h; exact s.skipIf_autoAdvance_pc bne_iff_ne
  | seReg x y => obtain rfl := (exec_seReg_next s t x y).mp h; exact s.skipIf_autoAdvance_pc beq_iff_eq
  | sneReg x y => obtain rfl := (exec_sneReg_next s t x y).mp h; rfl
  | skp x =>
    obtain ⟨k, hk, rfl⟩ := (exec_skp_next s t x).mp h
    exact s.skipIf_autoAdvance_pc (exists_named_key_iff hk (s.key · = true)).symm
  | sknp x =>
    obtain ⟨k, hk, rfl⟩ := (exec_sknp_next s t x).mp h
    exact s.skipIf_autoAdvance_pc (by simp [exists_named_key_iff hk])
  | ldVxK x => exact exec_ldVxK_pc h
  | rnd x kk => obtain ⟨_, _, rfl⟩ := (exec_rnd_next s t x kk).mp h; rfl
  | drw x y n => obtain ⟨_, rfl⟩ := (exec_drw_next s t x y n).mp h; rfl
  | ldB x => obtain ⟨_, rfl⟩ := (exec_ldB_next s t x).mp h; rfl
  | storeRegs x => obtain ⟨_, rfl⟩ := (exec_storeRegs_next s t x).mp h; rfl
  | loadRegs x => obtain ⟨_, rfl⟩ := (exec_loadRegs_next s t x).mp h; rfl
  -- The others complete in every state, and the auto-advance is the last thing they do.
  | _ => obtain rfl := Host.Outcome.next.inj h; rfl

end Sys2Proof.Machine
end

section
/-! PROOFS. The display (41_display.md): who writes RD and the pixels (R155), 00E0 (R150), and Dxyn on every pixel and on
F, once and twice (R151 to R154). -/

namespace Sys2Proof.Machine

/-! ### RD and the display (41 R155) -/

theorem ExecEffect.rd_display_eq {i : Instr} {s t : State} (e : ExecEffect i s t) (hc : i ≠ .cls)
    (hd : ∀ x y n, i ≠ .drw x y n) : t.rd = s.rd ∧ t.display = s.display := by
  cases e with
  | clear hi => exact absurd hi hc
  | draw x y n hi => exact absurd hi (hd x y n)
  | _ => simp

/-- Settles O19: the two display instructions end with the request for a redraw, and the effects of the others
write neither RD nor a pixel. -/
theorem redrawIsSetByDrawAndClear : Obligations.RedrawIsSetByDrawAndClear := by
  refine ⟨fun s t h => ?clear, fun x y n s t h => ?draw, fun i s t h => (exec_effect h).rd_display_eq⟩
  case clear => obtain rfl := (exec_cls_next s t).mp h; rfl
  case draw => obtain ⟨_, rfl⟩ := (exec_drw_next s t x y n).mp h; rfl

/-! ### 00E0 (41 R150) -/

/-- Settles O30: row 1 of the table, and the one state 00E0 ends in. -/
theorem clearTurnsEveryPixelOff : Obligations.ClearTurnsEveryPixelOff :=
  ⟨fun _ => decodeWord_row 0 rfl, fun s => ⟨_, (exec_cls_next s _).mpr rfl, fun _ _ => Vector.getElem_replicate _, rfl⟩⟩

/-! ### One draw (41 R151, R153, R154) -/

section

variable {s t : State} {x y : Reg} {n : Nat}

/-- A sprite with no byte, or with all its bytes in memory, is drawn (41 R151, 92 D6). -/
theorem exec_drw_completes (x y : Reg) (hr : n = 0 ∨ s.i.toNat + n ≤ 0x1000) : ∃ t, exec (.drw x y n) s = .next t :=
  ⟨_, (exec_drw_next s _ x y n).mpr ⟨(s.rangeError_eq_none n).mpr hr, rfl⟩⟩

theorem exec_drw_frame (h : exec (.drw x y n) s = .next t) :
    t = { s with display := t.display, f := t.f, rd := true, pc := s.pc + 2 } := by
  obtain ⟨_, rfl⟩ := (exec_drw_next s t x y n).mp h
  rfl

/-- A nibble's count of rows does not wrap onto its own first row. -/
theorem State.spriteRows_length_le (s : State) (hn : n < 16) : (s.spriteRows n).length ≤ 32 := by
  rw [State.spriteRows, List.length_map, List.length_range]
  omega

/-- A draw inverts the pixels under a set sprite bit and no other. -/
theorem exec_drw_pix (h : exec (.drw x y n) s = .next t) (hn : n < 16) (c : Fin 64) (r : Fin 32) :
    Display.pix t.display c r = (Display.pix s.display c r ^^ spriteCovers s x y n c r) := by
  obtain ⟨_, rfl⟩ := (exec_drw_next s t x y n).mp h
  rw [← spriteCovers_eq]
  exact (Canvas.drawRows_spec _ _ _ _ (s.spriteRows_length_le hn)).1 c r

/-- A draw sets F when a pixel under a set sprite bit was on, and else leaves it. -/
theorem exec_drw_f (h : exec (.drw x y n) s = .next t) (hn : n < 16) :
    t.f = if ∃ c r, spriteCovers s x y n c r = true ∧ Display.pix s.display c r = true then 1 else s.f := by
  obtain ⟨_, rfl⟩ := (exec_drw_next s t x y n).mp h
  simp only [← spriteCovers_eq]
  exact (Canvas.drawRows_spec _ _ _ _ (s.spriteRows_length_le hn)).2

/-- A draw leaves what places its sprite, so the next draw of it covers the same pixels. -/
theorem spriteCovers_of_exec_drw (h : exec (.drw x y n) s = .next t) : spriteCovers t x y n = spriteCovers s x y n := by
  rw [exec_drw_frame h]
  rfl

end

theorem exec_drw_range {s : State} (x y : Reg) {n : Nat} (hn : 0 < n) (hr : 0x1000 < s.i.toNat + n) :
    exec (.drw x y n) s = .fault (.memoryOutOfRange (max s.i.toNat 0x1000) s.pc) := by
  simp only [exec, execDrw, s.rangeError_eq_some hn hr, raise]

/-- Settles O31: row 23 of the table, a draw's pixels, flag and frame, and its range error. -/
theorem drawInvertsTheSpritesPixels : Obligations.DrawInvertsTheSpritesPixels := by
  refine ⟨fun w hw => by rw [decodeWord_row 22 rfl hw, decodeFields_of_word], fun s x y n hn hr => ?drawn,
    fun s x y n h0 _ hr => exec_drw_range x y h0 hr⟩
  case drawn =>
    obtain ⟨t, h⟩ := exec_drw_completes x y hr
    have hf := exec_drw_f h hn
    exact ⟨t, h, exec_drw_pix h hn, fun hit => hf.trans (if_pos hit), fun miss => hf.trans (if_neg miss),
      exec_drw_frame h⟩

/-! ### Two draws (95 W6) -/

/-- Settles O32: both draws cover the same pixels, and inverting a pixel twice gives it back; on a blank display the
first draw meets no pixel that is on, and the second meets those the first turned on. -/
theorem drawingTwiceGivesTheDisplayBack : Obligations.DrawingTwiceGivesTheDisplayBack := by
  intro s x y n hn hr
  obtain ⟨t, ht⟩ := exec_drw_completes x y hr
  have hi : t.i = s.i := by rw [exec_drw_frame ht]
  obtain ⟨u, hu⟩ := exec_drw_completes (s := t) x y (by rwa [hi])
  have hcovers := spriteCovers_of_exec_drw ht
  refine ⟨t, u, ht, hu, Display.ext_pix fun c r => ?back, fun blank => ⟨?first, ?second⟩⟩
  case back =>
    calc Display.pix u.display c r
        _ = (Display.pix t.display c r ^^ spriteCovers t x y n c r) := exec_drw_pix hu hn c r
        _ = ((Display.pix s.display c r ^^ spriteCovers s x y n c r) ^^ spriteCovers s x y n c r) := by
          rw [exec_drw_pix ht hn, hcovers]
        _ = Display.pix s.display c r := by rw [Bool.xor_assoc, Bool.xor_self, Bool.xor_false]
  case first => exact (exec_drw_f ht hn).trans (if_neg (by simp [blank]))
  case second =>
    rintro ⟨c, r, hc⟩
    have hlit : Display.pix t.display c r = true := by rw [exec_drw_pix ht hn, blank, hc, Bool.false_xor]
    exact (exec_drw_f hu hn).trans (if_pos ⟨c, r, by rw [hcovers, hc], hlit⟩)

end Sys2Proof.Machine
end

section
/-! PROOFS. Control flow (42_control_flow.md): return and call with their stack errors (R170, R172), jumps (R171, R177),
skips on a comparison (R173 to R176), and a call followed by its return (95 W4). -/

namespace Sys2Proof.Machine

/-! ### Return and call (42 R170, R172) -/

theorem exec_ret_underflow {s : State} (hs : s.sp = 0) : exec .ret s = .fault (.stackUnderflow s.pc) := by
  simp only [exec, execRet, if_pos hs, raise]

theorem exec_call_overflow {s : State} (nnn : Word) (hs : s.sp = 15) :
    exec (.call nnn) s = .fault (.stackOverflow s.pc) := by
  simp only [exec, execCall, if_pos hs, raise]

/-- Settles O33: row 2 of the table, and the two outcomes of 00EE by SP. -/
theorem returnPopsThenAdvances : Obligations.ReturnPopsThenAdvances :=
  ⟨fun _ => decodeWord_row 1 rfl, fun s hs => (exec_ret_next s _).mpr ⟨hs, rfl⟩, fun _ hs => exec_ret_underflow hs⟩

/-- Settles O35: row 4 of the table, and the two outcomes of 2nnn by SP; an SP with an entry above it is not 15. -/
theorem callPushesItsOwnAddress : Obligations.CallPushesItsOwnAddress := by
  refine ⟨rowDecodes_nnn 3 rfl, fun s nnn k hk => ?push, fun s nnn hs => exec_call_overflow nnn (Fin.ext hs)⟩
  case push =>
    have hs : s.sp ≠ 15 := by omega
    obtain rfl : k = s.sp + 1 := Fin.ext (hk.trans (sp_add_one_val hs).symm)
    exact (exec_call_next s _ nnn).mpr ⟨hs, congrArg s.push.setPC (address11_eq nnn).symm⟩

/-! ### A call and its return (95 W4) -/

/-- A step whose instruction completes ends with the count and the host's turn (40 R130, R132). -/
theorem step_of_exec_next {s u : State} {i : Instr} (hrun : s.runsNext i) (hexec : exec i s.tickTimers = .next u) :
    step s = .next u.countCycle.hostTurn :=
  step_eq_next.mpr ⟨i, u, hrun, hexec, rfl⟩

theorem step_call {s : State} {nnn : Word} (hrun : s.runsNext (.call nnn)) (hs : s.sp ≠ 15) :
    ∃ t, step s = .next t ∧ t.stack = s.push.stack ∧ t.sp = s.push.sp :=
  ⟨_, step_of_exec_next hrun ((exec_call_next s.tickTimers _ nnn).mpr ⟨hs, rfl⟩), by simp, by simp⟩

theorem step_ret {s : State} (hrun : s.runsNext .ret) (hs : s.sp ≠ 0) :
    ∃ t, step s = .next t ∧ t.pc = s.pop.pc + 2 ∧ t.stack = s.stack ∧ t.sp = s.pop.sp :=
  ⟨_, step_of_exec_next hrun ((exec_ret_next s.tickTimers _).mpr ⟨hs, rfl⟩), by simp, by simp, by simp⟩

theorem State.push_sp_ne_zero {s : State} (hs : s.sp ≠ 15) : s.push.sp ≠ 0 :=
  fun h => Nat.succ_ne_zero s.sp.val ((sp_add_one_val hs).symm.trans (congrArg Fin.val h))

/-- A pop takes back what a push put on the stack, whatever else has changed in between. -/
theorem State.pop_of_push {s t : State} (hstack : t.stack = s.push.stack) (hsp : t.sp = s.push.sp) :
    t.pop.pc = s.pc ∧ t.pop.sp = s.sp := by
  simp [hstack, hsp]

/-- Settles O36: the call's step leaves the stack and SP of its push, so the return's step pops the call's own address
and advances past it; the push wrote one entry, and the pop none. -/
theorem callThenReturnResumesAfterTheCall : Obligations.CallThenReturnResumesAfterTheCall := by
  intro s nnn hrun hlt
  have hs : s.sp ≠ 15 := by omega
  obtain ⟨t, hcall, hstack, hsp⟩ := step_call hrun hs
  refine ⟨t, hcall, fun hret => ?_⟩
  obtain ⟨u, hreturn, hpcU, hstackU, hspU⟩ := step_ret hret (hsp ▸ State.push_sp_ne_zero hs)
  obtain ⟨hpc, hspBack⟩ := State.pop_of_push hstack hsp
  refine ⟨u, hreturn, by rw [hpcU, hpc], hspU.trans hspBack, fun k hk => ?others⟩
  case others =>
    simp only [hstackU, hstack]
    exact s.push_stack_other hs hk

/-! ### Jumps (42 R171, R177) -/

/-- Settles O34: row 3 of the table, and the 11 bits `address11` keeps. -/
theorem jumpLoadsElevenBits : Obligations.JumpLoadsElevenBits :=
  ⟨rowDecodes_nnn 2 rfl, fun s nnn => (exec_jp_next s _ nnn).mpr (congrArg s.setPC (address11_eq nnn).symm)⟩

/-- Settles O39: row 21 of the table; adding the whole address modulo 256 is adding its low byte. -/
theorem v0JumpTruncatesToEightBits : Obligations.V0JumpTruncatesToEightBits := by
  refine ⟨rowDecodes_nnn 20 rfl, fun s nnn => (exec_jpV0_next s _ nnn).mpr ?_⟩
  have htarget : v0Target s.v[0] nnn = BitVec.ofNat 16 ((s.v[0].toNat + nnn.toNat % 256) % 256) := by
    rw [v0Target_eq, Nat.add_mod_mod]
  exact congrArg s.setPC htarget.symm

/-! ### Skips on a comparison (42 R173 to R176) -/

/-- A skip and its auto-advance change PC alone (40 R125, R126). -/
theorem State.skipIf_autoAdvance (s : State) {taken : Bool} {c : Prop} [Decidable c] (h : taken = true ↔ c) :
    (s.skipIf taken).autoAdvance = { s with pc := if c then s.pc + 4 else s.pc + 2 } := by
  rw [← s.skipIf_autoAdvance_pc h]
  rfl

/-- Settles O37: rows 5, 6 and 7 of the table, each with its comparison; 4xkk skips when the comparison fails. -/
theorem compareSkipsPassOneWord : Obligations.CompareSkipsPassOneWord := by
  refine ⟨⟨rowDecodes_xkk 4 rfl, fun s x kk => ?seImm⟩, ⟨rowDecodes_xkk 5 rfl, fun s x kk => ?sneImm⟩,
    ⟨rowDecodes_xy 6 rfl, fun s x y => ?seReg⟩⟩
  case seImm => exact (exec_seImm_next s _ x kk).mpr (s.skipIf_autoAdvance beq_iff_eq).symm
  case sneImm =>
    have hskip := s.skipIf_autoAdvance (bne_iff_ne (a := s.readV x) (b := kk))
    rw [ite_not] at hskip
    exact (exec_sneImm_next s _ x kk).mpr hskip.symm
  case seReg => exact (exec_seReg_next s _ x y).mpr (s.skipIf_autoAdvance beq_iff_eq).symm

/-- Settles O38: row 19 of the table; 9xy0 compares V[x] with itself, so its auto-advance is all it does. -/
theorem registerSneNeverSkips : Obligations.RegisterSneNeverSkips :=
  ⟨rowDecodes_xy 18 rfl, fun s x y => (exec_sneReg_next s _ x y).mpr rfl⟩

end Sys2Proof.Machine
end

section
/-! PROOFS. Register loads, the 8-bit ALU and the random byte (43_alu.md): each result and flag as a number, then each
instruction as its row of the table and the one state it ends in. -/

namespace Sys2Proof.Machine

/-! ### Results and flags as numbers (43 R201, R206 to R210) -/

theorem byte_add_eq (a b : Byte) : a + b = BitVec.ofNat 8 ((a.toNat + b.toNat) % 256) := by bv_omega

theorem byte_sub_eq (a b : Byte) : a - b = BitVec.ofNat 8 ((a.toNat + 256 - b.toNat) % 256) := by bv_omega

theorem byte_shiftRight_one_eq (a : Byte) : a >>> 1 = BitVec.ofNat 8 (a.toNat / 2) := by bv_omega

theorem byte_shiftLeft_one_eq (a : Byte) : a <<< 1 = BitVec.ofNat 8 (2 * a.toNat % 256) := by bv_omega

/-- 8xx4 and 8xxE leave the same byte (43 R213). -/
theorem byte_add_self_eq (a : Byte) : a + a = BitVec.ofNat 8 (2 * a.toNat % 256) := by bv_omega

theorem carryFlag_eq (a b : Byte) : carryFlag a b = if a.toNat + b.toNat > 255 then 1 else 0 := by
  simp only [carryFlag, flagOf_eq, decide_eq_true_eq]

/-- The carry of a byte added to itself is its bit 7 (43 R213). -/
theorem carryFlag_self (a : Byte) : carryFlag a a = if a.toNat ≥ 0x80 then 1 else 0 := by
  have hcarry : a.toNat + a.toNat > 255 ↔ a.toNat ≥ 0x80 := by omega
  simp only [carryFlag_eq, hcarry]

theorem greaterFlag_eq (a b : Byte) : greaterFlag a b = if a.toNat > b.toNat then 1 else 0 := by
  simp only [greaterFlag, flagOf_eq, decide_eq_true_eq, gt_iff_lt, BitVec.lt_def]

/-- Nothing is strictly greater than itself: the flag of 8xx5 and 8xx7 (43 R213). -/
theorem greaterFlag_self (a : Byte) : greaterFlag a a = 0 := by
  rw [greaterFlag_eq, if_neg (Nat.lt_irrefl _)]

/-! ### The state after a result is written -/

section

variable (s : State) (x : Reg)

/-- A result written to V[x] without a flag changes V[x] and PC alone. -/
theorem State.setV_autoAdvance {b b' : Byte} (hb : b = b') :
    (s.setV x b).autoAdvance = { s with v := s.v.set x.val b', pc := s.pc + 2 } := by
  rw [hb]
  rfl

/-- A result written to V[x] with its flag changes V[x], F and PC alone, x = 15 included (10 R22). -/
theorem State.setF_setV_autoAdvance {b b' f f' : Byte} (hf : f = f') (hb : b = b') :
    ((s.setF f).setV x b).autoAdvance = { s with v := s.v.set x.val b', f := f', pc := s.pc + 2 } := by
  rw [hf, hb]
  rfl

/-- V[x] written with its own value leaves the auto-advance as the only change. -/
theorem State.setV_readV_autoAdvance {b : Byte} (hb : b = s.readV x) :
    (s.setV x b).autoAdvance = { s with pc := s.pc + 2 } := by
  rw [s.setV_autoAdvance x hb, State.readV, Vector.set_getElem_self]

end

theorem exec_rnd_failure {s : State} (x : Reg) (kk : Byte) (hr : s.random = .failure) :
    exec (.rnd x kk) s = .fault (.randomSourceFailure s.pc) := by
  simp only [exec, execRnd, hr, raise]

/-! ### Loads, logic and arithmetic (43 R200 to R210) -/

/-- Settles O40: rows 8 and 10 of the table, and the one register each writes. -/
theorem loadsWriteTheirRegister : Obligations.LoadsWriteTheirRegister :=
  ⟨⟨rowDecodes_xkk 7 rfl, fun s x kk => (exec_ldImm_next s _ x kk).mpr rfl⟩,
    ⟨rowDecodes_xy 9 rfl, fun s x y => (exec_ldReg_next s _ x y).mpr rfl⟩⟩

/-- Settles O41: row 9 of the table, and the 8-bit sum as a number. -/
theorem addImmediateWrapsWithoutFlag : Obligations.AddImmediateWrapsWithoutFlag :=
  ⟨rowDecodes_xkk 8 rfl, fun s x kk => (exec_addImm_next s _ x kk).mpr (s.setV_autoAdvance x (byte_add_eq _ _)).symm⟩

/-- Settles O42: rows 11 to 13 of the table; none writes F. -/
theorem logicWritesNoFlag : Obligations.LogicWritesNoFlag :=
  ⟨⟨rowDecodes_xy 10 rfl, fun s x y => (exec_orReg_next s _ x y).mpr rfl⟩,
    ⟨rowDecodes_xy 11 rfl, fun s x y => (exec_andReg_next s _ x y).mpr rfl⟩,
    ⟨rowDecodes_xy 12 rfl, fun s x y => (exec_xorReg_next s _ x y).mpr rfl⟩⟩

/-- Settles O43: row 14 of the table, the carry, and the 8-bit sum as a number. -/
theorem addSetsCarry : Obligations.AddSetsCarry :=
  ⟨rowDecodes_xy 13 rfl, fun s x y => (exec_addReg_next s _ x y).mpr
    (s.setF_setV_autoAdvance x (carryFlag_eq _ _) (byte_add_eq _ _)).symm⟩

/-- Settles O44: rows 15 and 17 of the table; the two differ in which register is the minuend. -/
theorem subtractFlagIsStrictlyGreater : Obligations.SubtractFlagIsStrictlyGreater :=
  ⟨⟨rowDecodes_xy 14 rfl, fun s x y => (exec_subReg_next s _ x y).mpr
      (s.setF_setV_autoAdvance x (greaterFlag_eq _ _) (byte_sub_eq _ _)).symm⟩,
    ⟨rowDecodes_xy 16 rfl, fun s x y => (exec_subnReg_next s _ x y).mpr
      (s.setF_setV_autoAdvance x (greaterFlag_eq _ _) (byte_sub_eq _ _)).symm⟩⟩

/-- Settles O45: rows 16 and 18 of the table, the bit each shifts out, and the shifted byte as a number. -/
theorem shiftsPutTheBitOutInFlag : Obligations.ShiftsPutTheBitOutInFlag :=
  ⟨⟨rowDecodes_xy 15 rfl, fun s x y => (exec_shr_next s _ x y).mpr
      (s.setF_setV_autoAdvance x (lowBitFlag_eq _) (byte_shiftRight_one_eq _)).symm⟩,
    ⟨rowDecodes_xy 17 rfl, fun s x y => (exec_shl_next s _ x y).mpr
      (s.setF_setV_autoAdvance x (highBitFlag_eq _) (byte_shiftLeft_one_eq _)).symm⟩⟩

/-! ### One register as both operands (43 R213) -/

/-- Settles O46: with y = x, 8xx0, 8xx1 and 8xx2 write V[x] back, 8xx3 and the differences leave 0, and the sum is the
left shift with its bit out. -/
theorem sameRegisterCases : Obligations.SameRegisterCases := by
  intro s x
  refine ⟨?ldReg, ?orReg, ?andReg, ?xorReg, ?addReg, ?subReg, ?shr, ?subnReg, ?shl⟩
  case ldReg => exact (exec_ldReg_next s _ x x).mpr (s.setV_readV_autoAdvance x rfl).symm
  case orReg => exact (exec_orReg_next s _ x x).mpr (s.setV_readV_autoAdvance x BitVec.or_self).symm
  case andReg => exact (exec_andReg_next s _ x x).mpr (s.setV_readV_autoAdvance x BitVec.and_self).symm
  case xorReg => exact (exec_xorReg_next s _ x x).mpr (s.setV_autoAdvance x BitVec.xor_self).symm
  case addReg =>
    exact (exec_addReg_next s _ x x).mpr (s.setF_setV_autoAdvance x (carryFlag_self _) (byte_add_self_eq _)).symm
  case subReg =>
    exact (exec_subReg_next s _ x x).mpr (s.setF_setV_autoAdvance x (greaterFlag_self _) (BitVec.sub_self _)).symm
  case shr => exact (exec_shr_next s _ x x).mpr rfl
  case subnReg =>
    exact (exec_subnReg_next s _ x x).mpr (s.setF_setV_autoAdvance x (greaterFlag_self _) (BitVec.sub_self _)).symm
  case shl =>
    exact (exec_shl_next s _ x x).mpr (s.setF_setV_autoAdvance x (highBitFlag_eq _) (byte_shiftLeft_one_eq _)).symm

/-! ### The random byte (43 R211) -/

/-- Settles O47: row 22 of the table, and the two outcomes of Cxkk by the draw. -/
theorem randomByteIsTheDrawUnmasked : Obligations.RandomByteIsTheDrawUnmasked :=
  ⟨rowDecodes_xkk 21 rfl, fun s x kk b hr => (exec_rnd_next s _ x kk).mpr ⟨b, hr, rfl⟩,
    fun _ x kk hr => exec_rnd_failure x kk hr⟩

end Sys2Proof.Machine
end

section
/-! PROOFS. The index register and memory (44_index_memory.md): the loads of I and the 16-bit add (R240 to R242), and the
transfers Fx33, Fx55 and Fx65 with the errors of their checks (R243 to R245). -/

namespace Sys2Proof

/-- Row k makes the instruction of the word's x field. -/
theorem rowDecodes_x (k : Nat) {mask p : Word} {make : Reg → Instr}
    (hr : rows[k]? = some ⟨mask, p, fun d => make d.x⟩) : rowDecodes mask p fun w => make (fieldX w) :=
  rowDecodes_of_row (List.mem_of_getElem? hr) fun w => by rw [decodeFields_of_word]

namespace Machine

/-! ### The index register (44 R240, R241, R242) -/

/-- The 16-bit sum of a word and a byte as a number (44 R241). -/
theorem word_add_byte_eq (w : Word) (b : Byte) :
    w + b.setWidth 16 = BitVec.ofNat 16 ((w.toNat + b.toNat) % 65536) := by bv_omega

/-- A value loaded into I changes I and PC alone. -/
theorem State.setI_autoAdvance (s : State) {w w' : Word} (hw : w = w') :
    (s.setI w).autoAdvance = { s with i := w', pc := s.pc + 2 } := by
  rw [hw]
  rfl

/-- Settles O48: rows 20, 30 and 31 of the table, and the value each puts into I. -/
theorem indexRegisterLoadsAndAdd : Obligations.IndexRegisterLoadsAndAdd :=
  ⟨⟨rowDecodes_nnn 19 rfl, fun s nnn => (exec_ldI_next s _ nnn).mpr (s.setI_autoAdvance (address11_eq nnn)).symm⟩,
    ⟨rowDecodes_x 29 rfl, fun s x => (exec_addI_next s _ x).mpr (s.setI_autoAdvance (word_add_byte_eq _ _)).symm⟩,
    ⟨rowDecodes_x 30 rfl, fun s x => (exec_ldF_next s _ x).mpr rfl⟩⟩

/-! ### The errors of the transfers (44 R246, 60 R307, R309) -/

section

variable {s : State} {x : Reg} {e : Fault}

theorem exec_ldB_fault (h : s.writeError 3 = some e) : exec (.ldB x) s = .fault e := by
  simp only [exec, execLdB, h, raise]

theorem exec_storeRegs_fault (h : s.writeError x.val = some e) : exec (.storeRegs x) s = .fault e := by
  simp only [exec, execStoreRegs, h, raise]

theorem exec_loadRegs_fault (h : s.rangeError (x.val + 1) = some e) : exec (.loadRegs x) s = .fault e := by
  simp only [exec, execLoadRegs, h, raise]

end

/-! ### The transfers (44 R243, R244, R245) -/

/-- Settles O49: row 32 of the table; a checked store of the three digits, and the two errors of its check. -/
theorem decimalDigitsAreStoredAtI : Obligations.DecimalDigitsAreStoredAtI := by
  refine ⟨rowDecodes_x 31 rfl, fun s x hfont hrange => ?stored,
    fun s x hrange => exec_ldB_fault (s.writeError_range (by omega) (by omega)),
    fun s x hfont => exec_ldB_fault (s.writeError_font (by omega) (by omega) hfont)⟩
  case stored =>
    have hchecked : s.writeError 3 = none := (s.writeError_eq_none 3).mpr (.inr ⟨hfont, by omega⟩)
    obtain ⟨hHundreds, hTens, hOnes⟩ := s.read_storeAtI_digits (s.readV x)
    exact ⟨_, (exec_ldB_next s _ x).mpr ⟨hchecked, rfl⟩, rfl, hHundreds, hTens, hOnes,
      s.read_storeAtI_outside (decimalDigits (s.readV x))⟩

/-- Settles O50: row 33 of the table; a checked store of x bytes, and for x above 0 the two errors of its check. -/
theorem storeRegistersExcludesX : Obligations.StoreRegistersExcludesX := by
  refine ⟨rowDecodes_x 32 rfl, fun s x hbounds => ?stored,
    fun s x hx hrange => exec_storeRegs_fault (s.writeError_range hx hrange),
    fun s x hx hfont => exec_storeRegs_fault (s.writeError_font hx (by omega) hfont)⟩
  case stored =>
    have hchecked : s.writeError x.val = none := (s.writeError_eq_none x.val).mpr hbounds
    exact ⟨_, (exec_storeRegs_next s _ x).mpr ⟨hchecked, rfl⟩, rfl, fun _ hk => s.read_storeAtI_registers hk,
      fun a ha => s.read_storeAtI_outside (s.registersBelow x) a (by rwa [State.registersBelow_length])⟩

/-- Settles O51: row 34 of the table; a checked load of x + 1 bytes, register by register, and the error of its check. -/
theorem loadRegistersIncludesX : Obligations.LoadRegistersIncludesX := by
  refine ⟨rowDecodes_x 33 rfl, fun s x hrange => ?loaded,
    fun s x hrange => exec_loadRegs_fault (s.rangeError_eq_some x.val.succ_pos (by omega))⟩
  case loaded =>
    have hchecked : s.rangeError (x.val + 1) = none := (s.rangeError_eq_none (x.val + 1)).mpr (.inr (by omega))
    exact ⟨_, (exec_loadRegs_next s _ x).mpr ⟨hchecked, rfl⟩, rfl,
      fun k hk => (s.loadFromI_getElem x k).trans (if_pos hk),
      fun k hk => (s.loadFromI_getElem x k).trans (if_neg (not_le_of_gt hk))⟩

end Machine

end Sys2Proof
end

section
/-! PROOFS. Timers and keys (45_timers_keys.md): the timer transfers (R270 to R272), the skips on a key (R273, R274), and
Fx0A with its wait (R275). -/

namespace Sys2Proof.Machine

/-! ### The timers (45 R270, R271, R272) -/

/-- The countdown as a number (40 R123). -/
theorem countDown_eq (t : Byte) : countDown t = BitVec.ofNat 8 (t.toNat - 1) := by
  rw [← countDown_toNat, BitVec.ofNat_toNat, BitVec.setWidth_eq]

theorem State.tickTimers_eq (s : State) :
    s.tickTimers = { s with dt := BitVec.ofNat 8 (s.dt.toNat - 1), st := BitVec.ofNat 8 (s.st.toNat - 1) } := by
  rw [← countDown_eq, ← countDown_eq]
  rfl

/-- A completed step of Fx07 leaves DT in V[x] as the countdown left it: the host's turn writes no register. -/
theorem step_ldVxDT_v {s t : State} {x : Reg} (hrun : s.runsNext (.ldVxDT x)) (hstep : step s = .next t) :
    t.v[x.val] = countDown s.dt := by
  have hexec := (exec_ldVxDT_next s.tickTimers _ x).mpr rfl
  obtain rfl := Host.Outcome.next.inj ((step_of_exec_next hrun hexec).symm.trans hstep)
  simp

/-- Settles O53: rows 26, 28 and 29 of the table; in a step, Fx07 reads what the countdown left, and a loaded timer is
not counted down (`timersCountDownOncePerCycle`). -/
theorem timerReadsAndLoads : Obligations.TimerReadsAndLoads := by
  refine ⟨⟨rowDecodes_x 25 rfl, fun s x => (exec_ldVxDT_next s _ x).mpr rfl⟩,
    ⟨rowDecodes_x 27 rfl, fun s x => (exec_ldDTVx_next s _ x).mpr rfl⟩,
    ⟨rowDecodes_x 28 rfl, fun s x => (exec_ldSTVx_next s _ x).mpr rfl⟩, State.tickTimers_eq,
    fun s t x hrun hstep => ?readDT, fun s t x hrun hstep => ?loadDT, fun s t x hrun hstep => ?loadST⟩
  case readDT => rw [step_ldVxDT_v hrun hstep, countDown_toNat]
  case loadDT =>
    obtain ⟨hload, _⟩ := timersCountDownOncePerCycle s t _ hrun hstep
    exact hload x rfl
  case loadST =>
    obtain ⟨_, _, hload, _⟩ := timersCountDownOncePerCycle s t _ hrun hstep
    exact hload x rfl

/-! ### The skips on a key (45 R273, R274) -/

section

variable {s : State} {x : Reg} (h : 16 ≤ (s.readV x).toNat)
include h

theorem exec_skp_fault : exec (.skp x) s = .fault (.keyIndexOutOfRange (s.readV x) s.pc) := by
  simp only [exec, execSkp, (keyIndex_eq_none _).mpr h, raise]

theorem exec_sknp_fault : exec (.sknp x) s = .fault (.keyIndexOutOfRange (s.readV x) s.pc) := by
  simp only [exec, execSknp, (keyIndex_eq_none _).mpr h, raise]

end

/-- Settles O54: rows 24 and 25 of the table, each with its test of the named key and the error of a value that names
none; ExA1 skips when the test fails. -/
theorem keySkipsTestTheNamedKey : Obligations.KeySkipsTestTheNamedKey := by
  refine ⟨⟨rowDecodes_x 23 rfl, fun s x k hk => ?skp, fun _ _ h => exec_skp_fault h⟩,
    ⟨rowDecodes_x 24 rfl, fun s x k hk => ?sknp, fun _ _ h => exec_sknp_fault h⟩⟩
  case skp => exact (exec_skp_next s _ x).mpr ⟨k, hk, (s.skipIf_autoAdvance Iff.rfl).symm⟩
  case sknp =>
    have hnot : (!s.key k) = true ↔ ¬ s.key k = true := by simp
    have hskip := s.skipIf_autoAdvance hnot
    rw [ite_not] at hskip
    exact (exec_sknp_next s _ x).mpr ⟨k, hk, hskip.symm⟩

/-! ### The wait for a key (45 R275) -/

theorem exec_ldVxK_pressed {s : State} {k : Fin 16} (x : Reg) (hk : s.key k = true)
    (habove : ∀ j, k < j → s.key j = false) :
    exec (.ldVxK x) s = .next (s.setV x (BitVec.ofNat 8 k.val)).autoAdvance := by
  have hhighest : ∀ j, s.key j = true → j ≤ k := fun j hj => not_lt.mp fun hlt => by simp [habove j hlt] at hj
  exact (exec_ldVxK_next s _ x).mpr (.inl ⟨k, (s.scanKeys_eq_some k).mpr ⟨hk, hhighest⟩, rfl⟩)

theorem exec_ldVxK_waits {s : State} (x : Reg) (hkeys : ∀ j, s.key j = false) : exec (.ldVxK x) s = .next s :=
  (exec_ldVxK_next s _ x).mpr (.inr ⟨s.scanKeys_eq_none.mpr hkeys, rfl⟩)

/-- Settles O55: row 27 of the table, and the two outcomes of Fx0A by the keys. -/
theorem keyWaitTakesTheHighestKey : Obligations.KeyWaitTakesTheHighestKey :=
  ⟨rowDecodes_x 26 rfl, fun _ x _ hk habove => exec_ldVxK_pressed x hk habove,
    fun _ x hkeys => exec_ldVxK_waits x hkeys⟩

/-- The next instruction depends on PC and memory alone (40 R121). -/
theorem State.runsNext_congr {s t : State} {i : Instr} (hpc : t.pc = s.pc) (hmem : t.mem = s.mem) :
    t.runsNext i ↔ s.runsNext i := by
  simp only [State.runsNext, State.fetchesInRange, State.wordAtPC, hpc, hmem]

/-- A scripted move of the host sets the keys and leaves the script without it (assumption 8). -/
theorem State.hostTurn_of_scripted {s : State} {h : HostMove} {hs : List HostMove} (hm : s.hostMoves = h :: hs) :
    s.hostTurn.keys = h.keys ∧ s.hostTurn.hostMoves = hs := by
  simp [State.hostTurn, hm]

/-- A step of a waiting Fx0A: the countdown, the count and the host's turn are all it does. -/
theorem step_of_waiting {s : State} {x : Reg} (hrun : s.runsNext (.ldVxK x)) (hkeys : ∀ j, s.key j = false) :
    step s = .next s.tickTimers.countCycle.hostTurn :=
  step_of_exec_next hrun (exec_ldVxK_waits x hkeys)

/-- Settles O56, by induction on the number of steps: a step of the wait takes one scripted move, which presses no key, and
leaves PC and memory, so that the wait goes on for the rest of the moves. -/
theorem keyWaitLastsWhileNoKeyIsPressed : Obligations.KeyWaitLastsWhileNoKeyIsPressed := by
  intro k
  induction k with
  | zero => exact fun s _ hrun _ _ _ => ⟨s, rfl, rfl, rfl, rfl, rfl, rfl, rfl, hrun⟩
  | succ k ih =>
    intro s x hrun hkeys hlen hquiet
    obtain ⟨h, hs, hmoves⟩ := List.exists_cons_of_length_pos (Nat.zero_lt_of_lt hlen)
    rw [hmoves, List.take_succ_cons, List.forall_mem_cons] at hquiet
    rw [hmoves, List.length_cons, Nat.add_le_add_iff_right] at hlen
    obtain ⟨hquietNext, hquietRest⟩ := hquiet
    have hstep := step_of_waiting hrun hkeys
    obtain ⟨hkeysU, hmovesU⟩ := State.hostTurn_of_scripted (s := s.tickTimers.countCycle) hmoves
    have hrunU : s.tickTimers.countCycle.hostTurn.runsNext (.ldVxK x) :=
      (State.runsNext_congr (by simp) (by simp)).mpr hrun
    obtain ⟨t, hrest, hpc, hv, hmem, hdt, hst, hcount, hrunT⟩ :=
      ih _ x hrunU (hkeysU ▸ hquietNext) (hmovesU ▸ hlen) (hmovesU ▸ hquietRest)
    refine ⟨t, ⟨_, hstep, hrest⟩, by simpa using hpc, by simpa using hv, by simpa using hmem, ?dt, ?st, ?count,
      hrunT⟩
    case dt => simp [hdt, countDown_toNat, Nat.sub_sub, Nat.add_comm]
    case st => simp [hst, countDown_toNat, Nat.sub_sub, Nat.add_comm]
    case count =>
      simp only [hcount, State.hostTurn_cycleCount, State.countCycle_cycleCount, State.tickTimers_cycleCount]
      omega

end Sys2Proof.Machine
end

section
/-! PROOFS. Errors and the host (60_exceptions.md): every step completes or ends in an error of its fetch, its dispatch or
its instruction (R301, R302, R312), and what the host's turn writes (R322). -/

namespace Sys2Proof.Machine

/-! ### What the checks through I answer (60 R307, R309) -/

theorem State.rangeError_cases (s : State) (n : Nat) :
    s.rangeError n = none ∨ s.rangeError n = some (.memoryOutOfRange (max s.i.toNat 0x1000) s.pc) := by
  by_cases h : n = 0 ∨ s.i.toNat + n ≤ 0x1000
  · exact .inl ((s.rangeError_eq_none n).mpr h)
  · exact .inr (s.rangeError_eq_some (by omega) (by omega))

theorem State.writeError_cases (s : State) (n : Nat) :
    s.writeError n = none ∨ s.writeError n = some (.memoryOutOfRange (max s.i.toNat 0x1000) s.pc) ∨
    s.writeError n = some (.fontWrite s.i s.pc) := by
  by_cases h : n = 0 ∨ (0x50 ≤ s.i.toNat ∧ s.i.toNat + n ≤ 0x1000)
  · exact .inl ((s.writeError_eq_none n).mpr h)
  · by_cases hrange : s.i.toNat + n ≤ 0x1000
    · exact .inr (.inr (s.writeError_font (by omega) hrange (by omega)))
    · exact .inr (.inl (s.writeError_range (by omega) (by omega)))

/-! ### The errors of one instruction (60 R301, R312) -/

/-- The errors an instruction may raise, each with the info it records. -/
inductive ExecError (i : Instr) (s : State) : Fault → Prop where
  | stackOverflow (nnn : Word) (hi : i = .call nnn) : ExecError i s (.stackOverflow s.pc)
  | stackUnderflow (hi : i = .ret) : ExecError i s (.stackUnderflow s.pc)
  | randomSourceFailure (x : Reg) (kk : Byte) (hi : i = .rnd x kk) : ExecError i s (.randomSourceFailure s.pc)
  | keyIndexOutOfRange (x : Reg) (hi : i = .skp x ∨ i = .sknp x) : ExecError i s (.keyIndexOutOfRange (s.readV x) s.pc)
  | memoryOutOfRange
      (hi : (∃ x y n, i = .drw x y n) ∨ ∃ x, i = .ldB x ∨ i = .storeRegs x ∨ i = .loadRegs x) :
      ExecError i s (.memoryOutOfRange (max s.i.toNat 0x1000) s.pc)
  | fontWrite (x : Reg) (hi : i = .ldB x ∨ i = .storeRegs x) : ExecError i s (.fontWrite s.i s.pc)

/-- An instruction completes or ends in an error of its own; none is refused. -/
theorem exec_next_or_error (i : Instr) (s : State) :
    (∃ t, exec i s = .next t) ∨ ∃ e, exec i s = .fault e ∧ ExecError i s e := by
  cases i with
  | ret =>
    by_cases hs : s.sp = 0
    · exact .inr ⟨_, exec_ret_underflow hs, .stackUnderflow rfl⟩
    · exact .inl ⟨_, (exec_ret_next s _).mpr ⟨hs, rfl⟩⟩
  | call nnn =>
    by_cases hs : s.sp = 15
    · exact .inr ⟨_, exec_call_overflow nnn hs, .stackOverflow nnn rfl⟩
    · exact .inl ⟨_, (exec_call_next s _ nnn).mpr ⟨hs, rfl⟩⟩
  | rnd x kk =>
    cases hr : s.random with
    | byte b => exact .inl ⟨_, (exec_rnd_next s _ x kk).mpr ⟨b, hr, rfl⟩⟩
    | failure => exact .inr ⟨_, exec_rnd_failure x kk hr, .randomSourceFailure x kk rfl⟩
  | drw x y n =>
    by_cases hr : n = 0 ∨ s.i.toNat + n ≤ 0x1000
    · exact .inl (exec_drw_completes x y hr)
    · exact .inr ⟨_, exec_drw_range x y (by omega) (by omega), .memoryOutOfRange (.inl ⟨x, y, n, rfl⟩)⟩
  | skp x =>
    by_cases hk : (s.readV x).toNat < 16
    · exact .inl ⟨_, (exec_skp_next s _ x).mpr ⟨⟨_, hk⟩, rfl, rfl⟩⟩
    · exact .inr ⟨_, exec_skp_fault (not_lt.mp hk), .keyIndexOutOfRange x (.inl rfl)⟩
  | sknp x =>
    by_cases hk : (s.readV x).toNat < 16
    · exact .inl ⟨_, (exec_sknp_next s _ x).mpr ⟨⟨_, hk⟩, rfl, rfl⟩⟩
    · exact .inr ⟨_, exec_sknp_fault (not_lt.mp hk), .keyIndexOutOfRange x (.inr rfl)⟩
  | ldVxK x =>
    cases hk : s.scanKeys with
    | some k => exact .inl ⟨_, (exec_ldVxK_next s _ x).mpr (.inl ⟨k, hk, rfl⟩)⟩
    | none => exact .inl ⟨_, (exec_ldVxK_next s _ x).mpr (.inr ⟨hk, rfl⟩)⟩
  | ldB x =>
    obtain hw | hw | hw := s.writeError_cases 3
    · exact .inl ⟨_, (exec_ldB_next s _ x).mpr ⟨hw, rfl⟩⟩
    · exact .inr ⟨_, exec_ldB_fault hw, .memoryOutOfRange (.inr ⟨x, .inl rfl⟩)⟩
    · exact .inr ⟨_, exec_ldB_fault hw, .fontWrite x (.inl rfl)⟩
  | storeRegs x =>
    obtain hw | hw | hw := s.writeError_cases x.val
    · exact .inl ⟨_, (exec_storeRegs_next s _ x).mpr ⟨hw, rfl⟩⟩
    · exact .inr ⟨_, exec_storeRegs_fault hw, .memoryOutOfRange (.inr ⟨x, .inr (.inl rfl)⟩)⟩
    · exact .inr ⟨_, exec_storeRegs_fault hw, .fontWrite x (.inr rfl)⟩
  | loadRegs x =>
    obtain hr | hr := s.rangeError_cases (x.val + 1)
    · exact .inl ⟨_, (exec_loadRegs_next s _ x).mpr ⟨hr, rfl⟩⟩
    · exact .inr ⟨_, exec_loadRegs_fault hr, .memoryOutOfRange (.inr ⟨x, .inr (.inr rfl)⟩)⟩
  -- The others complete in every state.
  | _ => exact .inl ⟨_, rfl⟩

/-! ### The errors of a step (60 R302, R306, R312) -/

/-- The errors a step may end in, in the cycle's order: the fetch's, the dispatch's, the instruction's own. -/
inductive StepError (s : State) : Fault → Prop where
  | fetch (hf : ¬ s.fetchesInRange) : StepError s (.fetchOutOfRange s.pc)
  | dispatch (hf : s.fetchesInRange) (hw : illegalWord s.wordAtPC) : StepError s (.unknownOpcode s.wordAtPC s.pc)
  | instruction {i : Instr} {e : Fault} (hrun : s.runsNext i) (he : ExecError i s.tickTimers e) : StepError s e

theorem step_of_exec_fault {s : State} {i : Instr} {e : Fault} (hrun : s.runsNext i)
    (hexec : exec i s.tickTimers = .fault e) : step s = .fault e := by
  rw [step_of_runsNext hrun, hexec]

/-- A step completes or ends in one of these errors; none is refused. -/
theorem step_next_or_error (s : State) : (∃ t, step s = .next t) ∨ ∃ e, step s = .fault e ∧ StepError s e := by
  obtain ⟨i, hrun⟩ | hf | ⟨hf, _, hd⟩ := s.next_cases
  · obtain ⟨u, hexec⟩ | ⟨e, hexec, he⟩ := exec_next_or_error i s.tickTimers
    · exact .inl ⟨_, step_of_exec_next hrun hexec⟩
    · exact .inr ⟨e, step_of_exec_fault hrun hexec, .instruction hrun he⟩
  · exact .inr ⟨_, step_of_not_inRange hf, .fetch hf⟩
  · exact .inr ⟨_, step_of_unknown hf hd, .dispatch hf ((illegalWordsAreRefused _).mp hd)⟩

theorem step_ne_refused (s : State) (r : Refusal) : step s ≠ .refused r := by
  obtain ⟨t, h⟩ | ⟨e, h, _⟩ := step_next_or_error s <;> simp [h]

/-- INVERSION: a step that ends in an error ends in one of these. -/
theorem stepError_of_step_eq_fault {s : State} {e : Fault} (h : step s = .fault e) : StepError s e := by
  obtain ⟨t, ht⟩ | ⟨e', he, herr⟩ := step_next_or_error s
  · simp [ht] at h
  · obtain rfl := Host.Outcome.fault.inj (he.symm.trans h)
    exact herr

/-- Settles O12, a case per error; PC, I and V are as they were before the countdown, which writes the timers alone. -/
theorem everyErrorIsTheRunningInstructions : Obligations.EveryErrorIsTheRunningInstructions := by
  refine ⟨step_ne_refused, fun s e h => ?error⟩
  case error =>
    cases stepError_of_step_eq_fault h with
    | fetch hf => exact .inl ⟨hf, rfl⟩
    | dispatch hf hw => exact .inr (.inl ⟨hf, hw, rfl⟩)
    | instruction hrun he =>
      refine .inr (.inr ⟨_, hrun, ?own⟩)
      cases he with
      | stackOverflow nnn hi => exact .inl ⟨nnn, hi, rfl⟩
      | stackUnderflow hi => exact .inr (.inl ⟨hi, rfl⟩)
      | randomSourceFailure x kk hi => exact .inr (.inr (.inl ⟨x, kk, hi, rfl⟩))
      | keyIndexOutOfRange x hi => exact .inr (.inr (.inr (.inl ⟨x, hi, rfl⟩)))
      | memoryOutOfRange hi => exact .inr (.inr (.inr (.inr (.inl ⟨hi, rfl⟩))))
      | fontWrite x hi => exact .inr (.inr (.inr (.inr (.inr ⟨x, hi, rfl⟩))))

/-! ### The unknown opcode (60 R302) -/

/-- A word that matches no row is refused as a whole. -/
theorem decodeWord_of_no_row {w : Word} (h : ∀ r ∈ rows, w &&& r.mask ≠ r.pattern) :
    decodeWord w = .error (.unknownOpcode w) := by
  obtain ⟨r, hr, hw, _⟩ | ⟨_, hd⟩ := decodeWord_cases w
  · exact absurd ((r.hits_iff w).mp hw) (h r hr)
  · exact hd

/-- Settles O11: the word is refused by the decoder, and so the step ends. -/
theorem unknownOpcodeEndsTheRun : Obligations.UnknownOpcodeEndsTheRun :=
  fun _ hf hrows => step_of_unknown hf (decodeWord_of_no_row hrows)

/-! ### The host's turn (60 R322) -/

section

variable {s : State}

theorem State.hostTurn_eq_of_scripted {h : HostMove} {hs : List HostMove} (hm : s.hostMoves = h :: hs) :
    s.hostTurn = { s.applyHostMove h with hostMoves := hs } := by
  simp only [State.hostTurn, hm]

theorem State.hostTurn_eq_of_unscripted (hm : s.hostMoves = []) :
    s.hostTurn = { s.applyHostMove (Config.hostMove s.hostTurns) with hostTurns := s.hostTurns + 1 } := by
  simp only [State.hostTurn, hm]

end

/-- Settles O9: a turn makes one move, scripted or free, and moves the script or the counter on. -/
theorem hostTurnWritesOnlyItsInputs : Obligations.HostTurnWritesOnlyItsInputs :=
  ⟨fun _ _ _ hm => State.hostTurn_eq_of_scripted hm, fun _ hm => ⟨_, State.hostTurn_eq_of_unscripted hm⟩⟩

end Sys2Proof.Machine
end

section
/-! PROOFS. Before the first cycle: what state construction leaves (70_reset_and_hazards.md R340, R341), the zero launch of
92 D2 as one of its cases, and the loader (R342). -/

namespace Sys2Proof.Machine

/-! ### State construction (70 R340) -/

section

variable (font : Vector Byte 80) (init : Init) (first : HostMove) (script : List HostMove)

theorem State.construct_read_font (k : Fin 80) :
    Memory.read (State.construct font init first script).mem k.val = font[k.val] := by
  have hk : k.val < font.toList.length := by simp
  have hread := Memory.read_writeBytes_inside font.toList init.mem 0 k.val hk
  rwa [Nat.zero_add, Vector.getElem_toList] at hread

theorem State.construct_read_of_le {a : Nat} (ha : 80 ≤ a) :
    Memory.read (State.construct font init first script).mem a = Memory.read init.mem a :=
  Memory.read_writeBytes_outside font.toList init.mem 0 a (.inr (by simpa using ha))

/-- The font's 80 bytes lie in the address space. -/
theorem State.construct_memCanonical (h : Memory.wf init.mem = true) :
    (State.construct font init first script).MemCanonical :=
  Memory.wf_writeBytes font.toList h (by simp)

end

/-- Settles O27: the font is one run of bytes from 0 on, so it reads back inside and leaves the bytes outside alone. -/
theorem stateConstruction : Obligations.StateConstruction :=
  fun font init first script =>
    ⟨State.construct_read_font font init first script, fun _ => State.construct_read_of_le font init first script,
      rfl, rfl, rfl, rfl, rfl, rfl, rfl, rfl, rfl, rfl, rfl⟩

/-- With SP = 0 no stack entry is live (10 R27, R28). -/
theorem State.liveStackInRange_of_sp_eq_zero {s : State} (hsp : s.sp = 0) : s.LiveStackInRange :=
  fun _ h0 hk => absurd h0 (not_lt.mpr (hsp ▸ hk))

/-- Settles O23: the font keeps memory canonical, F is INIT's, PC is 0x200, and no stack entry is live. -/
theorem constructionMeetsTheInvariant : Obligations.ConstructionMeetsTheInvariant :=
  fun font init first script hmem hf =>
    { memCanonical := State.construct_memCanonical font init first script hmem
      flagIsBit := hf
      pcDoesNotWrap := (by decide : (0x200 : Word).toNat ≤ 0x1002)
      liveStackInRange := State.liveStackInRange_of_sp_eq_zero rfl }

/-! ### Reset (70 R340, R341) -/

/-- The default font (92 D10) as state construction takes it. -/
def fontDefaultVector : Vector Byte 80 := ⟨fontDefault.toArray, rfl⟩

/-- The default font over zero memory lists no cell: each byte is what its address reads as unlisted. -/
theorem Memory.writeBytes_fontDefault : Memory.writeBytes [] 0 fontDefault = [] := by decide +kernel

/-- Reset is state construction with the default font, the zero INIT (92 D2, D10), and no key and draw 0 as the first
cycle's inputs (assumption 7). -/
theorem State.reset_eq_construct : State.reset =
    State.construct fontDefaultVector Init.zero ⟨Vector.replicate 16 false, .byte 0, false⟩ [] := by
  have hmem : Memory.writeBytes Init.zero.mem 0 fontDefaultVector.toList = [] := Memory.writeBytes_fontDefault
  rw [State.construct, hmem]
  rfl

/-- Settles O22: reset is a state construction whose INIT has no listed cell and F = 0. -/
theorem resetMeetsTheInvariant : Obligations.ResetMeetsTheInvariant := by
  unfold Obligations.ResetMeetsTheInvariant
  rw [State.reset_eq_construct]
  exact constructionMeetsTheInvariant _ _ _ _ rfl (.inl rfl)

/-- From 0x050 on an unlisted address reads as 0 (assumption 2). -/
theorem Memory.unlisted_eq_zero_of_le {a : Nat} (ha : 80 ≤ a) : Memory.unlisted a = 0 :=
  List.getD_eq_default fontDefault 0 ha

/-- Settles O28: no cell is listed, so the font reads back byte by byte and every address from 0x050 on reads as 0. -/
theorem resetState : Obligations.ResetState :=
  ⟨rfl, rfl, rfl, by decide +kernel, by decide +kernel, fun _ => Memory.unlisted_eq_zero_of_le,
    fun k => Vector.getElem_replicate k.isLt⟩

/-! ### The loader (70 R342) -/

theorem load_unreadable (s : State) : load none s = .fault .imageReadFailure := rfl

theorem load_too_large {image : List Byte} (h : 3584 < image.length) (s : State) :
    load (some image) s = .fault (.imageTooLarge image.length) := by
  simp only [load, if_pos h, raise]

theorem load_fits {image : List Byte} (h : image.length ≤ 3584) (s : State) :
    load (some image) s = .next { s with mem := Memory.writeBytes s.mem 0x200 image } := by
  simp only [load, if_neg (not_lt.mpr h)]

/-- Settles O29: the two failures, and an image that fits is one run of bytes from 0x200 on. -/
theorem loaderWritesTheImage : Obligations.LoaderWritesTheImage :=
  ⟨load_unreadable, fun s _ h => load_too_large h s,
    fun s image h => ⟨_, load_fits h s, rfl, fun k hk => Memory.read_writeBytes_inside image s.mem 0x200 k hk,
      fun a ha => Memory.read_writeBytes_outside image s.mem 0x200 a ha⟩⟩

end Sys2Proof.Machine
end
